-- ==== Sys2Proof/Word.lean ====
section
/-! DEFINITION. The widths the spec fixes (spec/00_scope.md R5, spec/10_state.md): names for bit vectors and for indexes. -/

namespace Sys2Proof

/-- An 8-bit value: a general register, DT, ST, SP, a byte of MEM, the immediate `kk` (R5 XLEN, R32, R82). -/
abbrev Byte := BitVec 8

/-- A 16-bit value: I, PC, a stack entry, an opcode (R5 ALEN, R80). -/
abbrev Word := BitVec 16

/-- A 12-bit address field `nnn` (R82). -/
abbrev Addr := BitVec 12

/-- A 4-bit field: one hexadecimal digit of an opcode; the count `n` of DRW (R7, R82). -/
abbrev Nibble := BitVec 4

/-- The number of a general register, 0 to 15 (R20). -/
abbrev Reg := Fin 16

/-- The number of a key, 0 to 15 (R35, R188). -/
abbrev Key := Fin 16

/-- Register VF, the only flag (R22). -/
abbrev VF : Reg := 15

/-- Register V0, the implicit operand of Bnnn (R107). -/
abbrev V0 : Reg := 0

end Sys2Proof
end

