-- ==== Sys2Proof/Syntax.lean ====
section
/-! DEFINITION. The 34 instructions (spec/30_encoding.md R86), one constructor per row of spec/opcode_table.json, in table order.
Operands have the exact range of their field (R82), so a term names only operands an opcode can hold. -/

namespace Sys2Proof

inductive Instr where
  /-- 00E0 CLS (R170) -/
  | cls
  /-- 00EE RET (R100) -/
  | ret
  /-- 1nnn JP addr (R101) -/
  | jp (nnn : Addr)
  /-- 2nnn CALL addr (R102) -/
  | call (nnn : Addr)
  /-- 3xkk SE Vx,byte (R103) -/
  | seByte (x : Reg) (kk : Byte)
  /-- 4xkk SNE Vx,byte (R104) -/
  | sneByte (x : Reg) (kk : Byte)
  /-- 5xy0 SE Vx,Vy (R105) -/
  | seReg (x y : Reg)
  /-- 6xkk LD Vx,byte (R121) -/
  | ldByte (x : Reg) (kk : Byte)
  /-- 7xkk ADD Vx,byte (R122) -/
  | addByte (x : Reg) (kk : Byte)
  /-- 8xy0 LD Vx,Vy (R123) -/
  | ldReg (x y : Reg)
  /-- 8xy1 OR Vx,Vy (R124) -/
  | orReg (x y : Reg)
  /-- 8xy2 AND Vx,Vy (R125) -/
  | andReg (x y : Reg)
  /-- 8xy3 XOR Vx,Vy (R126) -/
  | xorReg (x y : Reg)
  /-- 8xy4 ADD Vx,Vy (R127) -/
  | addReg (x y : Reg)
  /-- 8xy5 SUB Vx,Vy (R128) -/
  | subReg (x y : Reg)
  /-- 8xy6 SHR Vx,Vy (R129) -/
  | shr (x y : Reg)
  /-- 8xy7 SUBN Vx,Vy (R130) -/
  | subnReg (x y : Reg)
  /-- 8xyE SHL Vx,Vy (R131) -/
  | shl (x y : Reg)
  /-- 9xy0 SNE Vx,Vy (R106) -/
  | sneReg (x y : Reg)
  /-- Annn LD I,addr (R150) -/
  | ldI (nnn : Addr)
  /-- Bnnn JP V0,addr (R107) -/
  | jpV0 (nnn : Addr)
  /-- Cxkk RND Vx,byte (R132) -/
  | rnd (x : Reg) (kk : Byte)
  /-- Dxyn DRW Vx,Vy,nibble (R172, R173) -/
  | drw (x y : Reg) (n : Nibble)
  /-- Ex9E SKP Vx (R185) -/
  | skp (x : Reg)
  /-- ExA1 SKNP Vx (R186) -/
  | sknp (x : Reg)
  /-- Fx07 LD Vx,DT (R187) -/
  | ldVxDt (x : Reg)
  /-- Fx0A LD Vx,K (R189) -/
  | ldVxK (x : Reg)
  /-- Fx15 LD DT,Vx (R190) -/
  | ldDtVx (x : Reg)
  /-- Fx18 LD ST,Vx (R191) -/
  | ldStVx (x : Reg)
  /-- Fx1E ADD I,Vx (R152) -/
  | addI (x : Reg)
  /-- Fx29 LD F,Vx (R154) -/
  | ldF (x : Reg)
  /-- Fx33 LD B,Vx (R156) -/
  | ldB (x : Reg)
  /-- Fx55 LD [I],Vx (R158) -/
  | storeRegs (x : Reg)
  /-- Fx65 LD Vx,[I] (R160) -/
  | loadRegs (x : Reg)
  deriving DecidableEq, Repr

end Sys2Proof
end

