-- ==== Sys2Proof/WellFormed.lean ====
section
/-! DEFINITION. The range checks on operand numbers (spec/30_encoding.md R82; spec/60_exceptions.md R206 for registers).
A term of Instr carries operands of the exact width of their field, so every term passes; the checks on plain numbers are
what a wider interface (an assembler, the register file's own getters) has to pass before it can build one. Log entry 12. -/

namespace Sys2Proof

/-- A register number is 0 to 15 (R20, R82). -/
def regOk (n : Nat) : Bool := n < 16

/-- An address field holds 12 bits (R82). -/
def addrOk (n : Nat) : Bool := n < 4096

/-- An immediate byte holds 8 bits (R82). -/
def byteOk (n : Nat) : Bool := n < 256

/-- A sprite height holds 4 bits (R82). -/
def nibbleOk (n : Nat) : Bool := n < 16

/-- The operand ranges of R82, instruction by instruction. -/
def Instr.wellFormed : Instr → Bool
  | .cls | .ret => true
  | .jp nnn | .call nnn | .ldI nnn | .jpV0 nnn => addrOk nnn.toNat
  | .seByte x kk | .sneByte x kk | .ldByte x kk | .addByte x kk | .rnd x kk => regOk x.val && byteOk kk.toNat
  | .seReg x y | .ldReg x y | .orReg x y | .andReg x y | .xorReg x y | .addReg x y | .subReg x y | .shr x y | .subnReg x y
  | .shl x y | .sneReg x y => regOk x.val && regOk y.val
  | .drw x y n => regOk x.val && regOk y.val && nibbleOk n.toNat
  | .skp x | .sknp x | .ldVxDt x | .ldVxK x | .ldDtVx x | .ldStVx x | .addI x | .ldF x | .ldB x | .storeRegs x | .loadRegs x =>
    regOk x.val

/-- A register number from a wider number: none outside 0 to 15. -/
def reg? (n : Nat) : Option Reg := if h : n < 16 then some ⟨n, h⟩ else none

/-- An address field from a wider number: none where it does not fit. -/
def addr? (n : Nat) : Option Addr := if addrOk n then some (BitVec.ofNat 12 n) else none

/-- An immediate byte from a wider number: none where it does not fit. -/
def byte? (n : Nat) : Option Byte := if byteOk n then some (BitVec.ofNat 8 n) else none

/-- A sprite height from a wider number: none where it does not fit. -/
def nibble? (n : Nat) : Option Nibble := if nibbleOk n then some (BitVec.ofNat 4 n) else none

end Sys2Proof
end

