-- ==== Sys2Proof/Decode.lean ====
section
/-! DEFINITION. Decoding and encoding (spec/30_encoding.md): the fields R82, the strict decoder R85, the opcode map R86 as data,
the encoder, and the layout of an opcode in bytes (big-endian, R54, R80). -/

namespace Sys2Proof

/-! ## Fields (R81, R82) -/

/-- `N3 = op[15:12]`, the family. -/
def nibble3 (op : Word) : Nibble := op.extractLsb' 12 4

/-- `N2 = op[11:8]`. -/
def nibble2 (op : Word) : Nibble := op.extractLsb' 8 4

/-- `N1 = op[7:4]`. -/
def nibble1 (op : Word) : Nibble := op.extractLsb' 4 4

/-- `N0 = op[3:0]`. -/
def nibble0 (op : Word) : Nibble := op.extractLsb' 0 4

/-- The register a 4-bit field names. -/
def regOfNibble (b : Nibble) : Reg := ⟨b.toNat, b.isLt⟩

/-- `x = op[11:8]`. -/
def fieldX (op : Word) : Reg := regOfNibble (nibble2 op)

/-- `y = op[7:4]`. -/
def fieldY (op : Word) : Reg := regOfNibble (nibble1 op)

/-- `n = op[3:0]`. -/
def fieldN (op : Word) : Nibble := nibble0 op

/-- `kk = op[7:0]`. -/
def fieldKk (op : Word) : Byte := op.extractLsb' 0 8

/-- `nnn = op[11:0]`. -/
def fieldNnn (op : Word) : Addr := op.extractLsb' 0 12

/-! ## The decoder (R85 to R88) -/

/-- Why bytes are no instruction. -/
inductive DecodeError where
  /-- No row of the opcode map matches `op` (R87). -/
  | unknownInstruction (op : Word)
  /-- Fewer than the two bytes of an opcode (R80). -/
  | truncated (available : Nat)
  deriving DecidableEq, Repr

/-- Family 0: only 00E0 and 00EE (R88). -/
def decodeFixed (op : Word) : Option Instr :=
  if op = 0x00E0#16 then some .cls else if op = 0x00EE#16 then some .ret else none

/-- Family 8: the register operations, by sub-opcode (R86). -/
def decodeAlu (x y : Reg) (sub : Nibble) : Option Instr :=
  match sub.toNat with
  | 0x0 => some (.ldReg x y)
  | 0x1 => some (.orReg x y)
  | 0x2 => some (.andReg x y)
  | 0x3 => some (.xorReg x y)
  | 0x4 => some (.addReg x y)
  | 0x5 => some (.subReg x y)
  | 0x6 => some (.shr x y)
  | 0x7 => some (.subnReg x y)
  | 0xE => some (.shl x y)
  | _ => none

/-- Family E: the key skips, by low byte (R86). -/
def decodeKeys (x : Reg) (low : Byte) : Option Instr :=
  match low.toNat with
  | 0x9E => some (.skp x)
  | 0xA1 => some (.sknp x)
  | _ => none

/-- Family F, by low byte (R86). -/
def decodeMisc (x : Reg) (low : Byte) : Option Instr :=
  match low.toNat with
  | 0x07 => some (.ldVxDt x)
  | 0x0A => some (.ldVxK x)
  | 0x15 => some (.ldDtVx x)
  | 0x18 => some (.ldStVx x)
  | 0x1E => some (.addI x)
  | 0x29 => some (.ldF x)
  | 0x33 => some (.ldB x)
  | 0x55 => some (.storeRegs x)
  | 0x65 => some (.loadRegs x)
  | _ => none

/-- An instruction that exists only with low nibble 0: 5xy0 and 9xy0 (R105, R106). -/
def decodeLowNibbleZero (low : Nibble) (i : Instr) : Option Instr :=
  if low = 0x0#4 then some i else none

/-- The instruction an opcode selects, by its high nibble first (R85). -/
def lookup (op : Word) : Option Instr :=
  match (nibble3 op).toNat with
  | 0x0 => decodeFixed op
  | 0x1 => some (.jp (fieldNnn op))
  | 0x2 => some (.call (fieldNnn op))
  | 0x3 => some (.seByte (fieldX op) (fieldKk op))
  | 0x4 => some (.sneByte (fieldX op) (fieldKk op))
  | 0x5 => decodeLowNibbleZero (nibble0 op) (.seReg (fieldX op) (fieldY op))
  | 0x6 => some (.ldByte (fieldX op) (fieldKk op))
  | 0x7 => some (.addByte (fieldX op) (fieldKk op))
  | 0x8 => decodeAlu (fieldX op) (fieldY op) (nibble0 op)
  | 0x9 => decodeLowNibbleZero (nibble0 op) (.sneReg (fieldX op) (fieldY op))
  | 0xA => some (.ldI (fieldNnn op))
  | 0xB => some (.jpV0 (fieldNnn op))
  | 0xC => some (.rnd (fieldX op) (fieldKk op))
  | 0xD => some (.drw (fieldX op) (fieldY op) (fieldN op))
  | 0xE => decodeKeys (fieldX op) (fieldKk op)
  | _ => decodeMisc (fieldX op) (fieldKk op)

/-- Decoding an opcode: one instruction, or unknown with the opcode itself (R85, R87). -/
def decodeWord (op : Word) : Except DecodeError Instr :=
  match lookup op with
  | some i => .ok i
  | none => .error (.unknownInstruction op)

/-- The opcode two bytes hold, the byte at the lower address in bits 15 to 8 (R54). -/
def wordOfBytes (hi lo : Byte) : Word := hi ++ lo

/-- Decoding the front of a byte sequence: the instruction and the bytes after it (R80). -/
def decode : List Byte → Except DecodeError (Instr × List Byte)
  | hi :: lo :: rest =>
    match decodeWord (wordOfBytes hi lo) with
    | .ok i => .ok (i, rest)
    | .error e => .error e
  | bs => .error (.truncated bs.length)

/-! ## The encoder (R81, R86) -/

/-- The 4-bit field that names a register. -/
def nibbleOfReg (r : Reg) : Nibble := BitVec.ofNat 4 r.val

/-- Format NNN: family, 12-bit address (R81). -/
def formNnn (family : Nibble) (nnn : Addr) : Word := family ++ nnn

/-- Format XKK: family, register, immediate (R81). -/
def formXkk (family : Nibble) (x : Reg) (kk : Byte) : Word := family ++ nibbleOfReg x ++ kk

/-- Formats XY and XYN: family, two registers, low nibble (R81). -/
def formXyn (family : Nibble) (x y : Reg) (low : Nibble) : Word := family ++ nibbleOfReg x ++ nibbleOfReg y ++ low

/-- The opcode of an instruction (R86). -/
def encode : Instr → Word
  | .cls => 0x00E0#16
  | .ret => 0x00EE#16
  | .jp nnn => formNnn 0x1#4 nnn
  | .call nnn => formNnn 0x2#4 nnn
  | .seByte x kk => formXkk 0x3#4 x kk
  | .sneByte x kk => formXkk 0x4#4 x kk
  | .seReg x y => formXyn 0x5#4 x y 0x0#4
  | .ldByte x kk => formXkk 0x6#4 x kk
  | .addByte x kk => formXkk 0x7#4 x kk
  | .ldReg x y => formXyn 0x8#4 x y 0x0#4
  | .orReg x y => formXyn 0x8#4 x y 0x1#4
  | .andReg x y => formXyn 0x8#4 x y 0x2#4
  | .xorReg x y => formXyn 0x8#4 x y 0x3#4
  | .addReg x y => formXyn 0x8#4 x y 0x4#4
  | .subReg x y => formXyn 0x8#4 x y 0x5#4
  | .shr x y => formXyn 0x8#4 x y 0x6#4
  | .subnReg x y => formXyn 0x8#4 x y 0x7#4
  | .shl x y => formXyn 0x8#4 x y 0xE#4
  | .sneReg x y => formXyn 0x9#4 x y 0x0#4
  | .ldI nnn => formNnn 0xA#4 nnn
  | .jpV0 nnn => formNnn 0xB#4 nnn
  | .rnd x kk => formXkk 0xC#4 x kk
  | .drw x y n => formXyn 0xD#4 x y n
  | .skp x => formXkk 0xE#4 x 0x9E#8
  | .sknp x => formXkk 0xE#4 x 0xA1#8
  | .ldVxDt x => formXkk 0xF#4 x 0x07#8
  | .ldVxK x => formXkk 0xF#4 x 0x0A#8
  | .ldDtVx x => formXkk 0xF#4 x 0x15#8
  | .ldStVx x => formXkk 0xF#4 x 0x18#8
  | .addI x => formXkk 0xF#4 x 0x1E#8
  | .ldF x => formXkk 0xF#4 x 0x29#8
  | .ldB x => formXkk 0xF#4 x 0x33#8
  | .storeRegs x => formXkk 0xF#4 x 0x55#8
  | .loadRegs x => formXkk 0xF#4 x 0x65#8

/-- Bits 15 to 8 of a word, the byte at the lower address (R54). -/
def highByte (w : Word) : Byte := w.extractLsb' 8 8

/-- Bits 7 to 0 of a word, the byte at the higher address (R54). -/
def lowByte (w : Word) : Byte := w.extractLsb' 0 8

/-- The two bytes of an instruction, in address order (R54, R80). -/
def encodeBytes (i : Instr) : List Byte := [highByte (encode i), lowByte (encode i)]

/-! ## The opcode map as data (R86) -/

/-- A row of R86: its pattern as written, and its `match` and `mask`. -/
structure OpcodeRow where
  pattern : String
  bits    : Word
  mask    : Word
  deriving DecidableEq, Repr

/-- A row matches `op` when `(op AND mask) = match` (R85). -/
def OpcodeRow.covers (r : OpcodeRow) (op : Word) : Bool := op &&& r.mask == r.bits

/-- Rows 1 to 9 of R86. -/
def opcodeRows1 : List OpcodeRow :=
  [⟨"00E0", 0x00E0#16, 0xFFFF#16⟩, ⟨"00EE", 0x00EE#16, 0xFFFF#16⟩, ⟨"1nnn", 0x1000#16, 0xF000#16⟩,
   ⟨"2nnn", 0x2000#16, 0xF000#16⟩, ⟨"3xkk", 0x3000#16, 0xF000#16⟩, ⟨"4xkk", 0x4000#16, 0xF000#16⟩,
   ⟨"5xy0", 0x5000#16, 0xF00F#16⟩, ⟨"6xkk", 0x6000#16, 0xF000#16⟩, ⟨"7xkk", 0x7000#16, 0xF000#16⟩]

/-- Rows 10 to 18 of R86. -/
def opcodeRows2 : List OpcodeRow :=
  [⟨"8xy0", 0x8000#16, 0xF00F#16⟩, ⟨"8xy1", 0x8001#16, 0xF00F#16⟩, ⟨"8xy2", 0x8002#16, 0xF00F#16⟩,
   ⟨"8xy3", 0x8003#16, 0xF00F#16⟩, ⟨"8xy4", 0x8004#16, 0xF00F#16⟩, ⟨"8xy5", 0x8005#16, 0xF00F#16⟩,
   ⟨"8xy6", 0x8006#16, 0xF00F#16⟩, ⟨"8xy7", 0x8007#16, 0xF00F#16⟩, ⟨"8xyE", 0x800E#16, 0xF00F#16⟩]

/-- Rows 19 to 25 of R86. -/
def opcodeRows3 : List OpcodeRow :=
  [⟨"9xy0", 0x9000#16, 0xF00F#16⟩, ⟨"Annn", 0xA000#16, 0xF000#16⟩, ⟨"Bnnn", 0xB000#16, 0xF000#16⟩,
   ⟨"Cxkk", 0xC000#16, 0xF000#16⟩, ⟨"Dxyn", 0xD000#16, 0xF000#16⟩, ⟨"Ex9E", 0xE09E#16, 0xF0FF#16⟩,
   ⟨"ExA1", 0xE0A1#16, 0xF0FF#16⟩]

/-- Rows 26 to 34 of R86. -/
def opcodeRows4 : List OpcodeRow :=
  [⟨"Fx07", 0xF007#16, 0xF0FF#16⟩, ⟨"Fx0A", 0xF00A#16, 0xF0FF#16⟩, ⟨"Fx15", 0xF015#16, 0xF0FF#16⟩,
   ⟨"Fx18", 0xF018#16, 0xF0FF#16⟩, ⟨"Fx1E", 0xF01E#16, 0xF0FF#16⟩, ⟨"Fx29", 0xF029#16, 0xF0FF#16⟩,
   ⟨"Fx33", 0xF033#16, 0xF0FF#16⟩, ⟨"Fx55", 0xF055#16, 0xF0FF#16⟩, ⟨"Fx65", 0xF065#16, 0xF0FF#16⟩]

/-- The opcode map (R86), in its own order. -/
def opcodeTable : List OpcodeRow := opcodeRows1 ++ opcodeRows2 ++ opcodeRows3 ++ opcodeRows4

/-- The place of an instruction's row in the opcode map, counted from 0 (R86, column #, less one). -/
def Instr.rowIndex : Instr → Nat
  | .cls => 0 | .ret => 1 | .jp _ => 2 | .call _ => 3 | .seByte _ _ => 4 | .sneByte _ _ => 5 | .seReg _ _ => 6
  | .ldByte _ _ => 7 | .addByte _ _ => 8 | .ldReg _ _ => 9 | .orReg _ _ => 10 | .andReg _ _ => 11 | .xorReg _ _ => 12
  | .addReg _ _ => 13 | .subReg _ _ => 14 | .shr _ _ => 15 | .subnReg _ _ => 16 | .shl _ _ => 17 | .sneReg _ _ => 18
  | .ldI _ => 19 | .jpV0 _ => 20 | .rnd _ _ => 21 | .drw _ _ _ => 22 | .skp _ => 23 | .sknp _ => 24 | .ldVxDt _ => 25
  | .ldVxK _ => 26 | .ldDtVx _ => 27 | .ldStVx _ => 28 | .addI _ => 29 | .ldF _ => 30 | .ldB _ => 31 | .storeRegs _ => 32
  | .loadRegs _ => 33

/-- The row of the opcode map an instruction belongs to, where the index is within the table. -/
def Instr.row? (i : Instr) : Option OpcodeRow := opcodeTable[i.rowIndex]?

/-! ## The host's word interface -/

/-- The opcode of the host's word `w` of `nbits` bits: the bits above `nbits` are 0. -/
def tableWord (nbits w : Nat) : Word := BitVec.ofNat 16 (w % 2 ^ nbits)

/-- What the decoder reads from the bytes of a word of the opcode table, laid out as MEM stores them (R54). -/
def decodeTableWord (nbits w : Nat) : Option Instr :=
  match decode [highByte (tableWord nbits w), lowByte (tableWord nbits w)] with
  | .ok (i, _) => some i
  | .error _ => none

end Sys2Proof
end

