-- ==== Sys2Proof/Config.lean ====
section
/-! DEFINITION. The parameters of spec/00_scope.md R5 that have more than one value, and the free values the spec leaves open. -/

namespace Sys2Proof

/-- `DRW_EDGE`: what DRW does at the display edges (R5, R172, R173). -/
inductive DrwEdge where
  | wrap | clip
  deriving DecidableEq, Repr

/-- `FX1E_VF`: whether ADD I,Vx writes VF (R5, R152). -/
inductive Fx1eVf where
  | off | on
  deriving DecidableEq, Repr

/-- `SHIFT_SRC`: which register SHR and SHL shift (R5, R129, R131). -/
inductive ShiftSrc where
  | vx | vy
  deriving DecidableEq, Repr

/-- `LDST_I`: whether LD [I],Vx and LD Vx,[I] change I (R5, R158, R160). -/
inductive LdstI where
  | unchanged | addXPlus1
  deriving DecidableEq, Repr

/-- `FX29_OOR`: LD F,Vx when Vx > 0xF (R5, R154). `refuse`, `mask` and `linear` are the spec's values.
The default is `refuse`. `free` is the model's (DESIGN CHOICE, log entry 2), for a core that runs
LD F on every operand: I receives a free value. No core has it unless it is built with it. -/
inductive Fx29Oor where
  | refuse | mask | linear | free
  deriving DecidableEq, Repr

/-- The parameters a core is built with (R5). They are configuration, not registers (R31): nothing writes them. -/
structure Params where
  drwEdge  : DrwEdge
  fx1eVf   : Fx1eVf
  shiftSrc : ShiftSrc
  ldstI    : LdstI
  fx29Oor  : Fx29Oor
  /-- FONT_BASE; the type holds R5's bound `FONT_BASE + 80 <= 0x200`, that is at most 0x1B0 = 432. -/
  fontBase : Fin 433
  /-- FONT_DATA, the 80 font bytes (R36). -/
  fontData : Vector Byte 80
  deriving DecidableEq, Repr

namespace Config

/-- The random byte of the k-th draw: a free value, under no law (R37, R132). DESIGN CHOICE, log entry 3. -/
opaque rndByte : Nat → Byte

/-- The value LD F,Vx gives I at the k-th draw when Vx > 0xF and FX29_OOR = free: a free value (R154 states no result).
DESIGN CHOICE, log entry 2. -/
opaque freeFontAddress : Nat → Word

end Config

end Sys2Proof
end

