-- ==== Sys2Proof/Machine/Defaults.lean ====
section
/-! DEFINITION. The values the parameters of spec/00_scope.md R5 have in a core that is given no argument, and the font (R36). -/

namespace Sys2Proof.Machine

/-- PROG_BASE: the reset value of PC and the load address of a program (R5, R38, R243). -/
def progBase : Word := 0x0200#16

/-- The glyphs of the digits 0 to 7 (R36). UNVERIFIED: the spec takes them from general knowledge, log entry 9. -/
def glyphs0to7 : List Byte :=
  [0xF0, 0x90, 0x90, 0x90, 0xF0,  0x20, 0x60, 0x20, 0x20, 0x70,
   0xF0, 0x10, 0xF0, 0x80, 0xF0,  0xF0, 0x10, 0xF0, 0x10, 0xF0,
   0x90, 0x90, 0xF0, 0x10, 0x10,  0xF0, 0x80, 0xF0, 0x10, 0xF0,
   0xF0, 0x80, 0xF0, 0x90, 0xF0,  0xF0, 0x10, 0x20, 0x40, 0x40]

/-- The glyphs of the digits 8 to F (R36). UNVERIFIED, log entry 9. -/
def glyphs8toF : List Byte :=
  [0xF0, 0x90, 0xF0, 0x90, 0xF0,  0xF0, 0x90, 0xF0, 0x10, 0xF0,
   0xF0, 0x90, 0xF0, 0x90, 0x90,  0xE0, 0x90, 0xE0, 0x90, 0xE0,
   0xF0, 0x80, 0x80, 0x80, 0xF0,  0xE0, 0x90, 0x90, 0x90, 0xE0,
   0xF0, 0x80, 0xF0, 0x80, 0xF0,  0xF0, 0x80, 0xF0, 0x80, 0x80]

/-- FONT_DATA's default: sixteen sprites of five bytes, digit 0 first (R36). -/
def defaultFont : Vector Byte 80 := ⟨(glyphs0to7 ++ glyphs8toF).toArray, rfl⟩

/-- The defaults of R5: a core that is given no argument. -/
def defaultParams : Params :=
  { drwEdge := .wrap, fx1eVf := .off, shiftSrc := .vx, ldstI := .unchanged, fx29Oor := .refuse
    fontBase := 0, fontData := defaultFont }

end Sys2Proof.Machine
end

