-- ==== Sys2Proof/Machine/State.lean ====
section
/-! DEFINITION. The state of the core (spec/10_state.md), the events the host issues (spec/00_scope.md R6), the reasons a step
stops (spec/60_exceptions.md R200), and the state at reset (R38). -/

namespace Sys2Proof.Machine

/-- One whole event of the host (R6). Arguments are as wide as the host may pass them: R221 and R244 check them. -/
inductive Event where
  /-- Execute one instruction (R84). -/
  | step
  /-- One 60 Hz decrement of the timers (R216). -/
  | tick
  /-- Write key `k` of the input latch (R221). -/
  | setKey (k : Nat) (pressed : Bool)
  /-- Reset the core (R240). -/
  | reset
  /-- Copy bytes into memory from `offset` on (R244). -/
  | load (bytes : List Byte) (offset : Nat)
  deriving DecidableEq, Repr

/-- The display: 32 rows of 64 pixels, true is on (R34). -/
abbrev Framebuffer := Vector (Vector Bool 64) 32

/-- MEM as the bytes that differ from its reset contents, addresses rising (R32, R58; log entry 9). -/
abbrev Memory := List Host.Cell

structure State where
  /-- V0 to VF (R20). -/
  v : Vector Byte 16
  /-- The index register I (R26). -/
  i : Word
  /-- The program counter PC (R23). -/
  pc : Word
  /-- The stack pointer SP, the count of entries (R27). -/
  sp : Byte
  /-- STACK[0] to STACK[15] (R28). -/
  stack : Vector Word 16
  /-- The delay timer DT (R29). -/
  dt : Byte
  /-- The sound timer ST (R30). -/
  st : Byte
  /-- MEM (R32). -/
  mem : Memory
  /-- FB (R34). -/
  fb : Framebuffer
  /-- The input latch KEY, true is pressed (R35). -/
  keys : Vector Bool 16
  /-- The model's own: how many free values have been drawn, in the place of RNGSTATE (R37). DESIGN CHOICE, log entry 3. -/
  draws : Nat
  /-- The model's own: the parameters the core was built with (R5). DESIGN CHOICE, log entry 1. -/
  params : Params
  /-- The model's own: the events the host issues next, oldest first; none listed means STEP. DESIGN CHOICE, log entry 5. -/
  hostEvents : List Event
  deriving DecidableEq, Repr

/-- The six error kinds (R200). All are safe: the machine reports them itself and its state is unchanged (R11, R213). -/
inductive Fault where
  /-- R201. Raised by fetch, DRW, LD B, LD [I],Vx, LD Vx,[I] and the LOAD event. Safe. -/
  | outOfBounds
  /-- R206. Raised by the register file's own range-checked interface only, never by a step. Safe. -/
  | invalidRegister
  /-- R202. Raised by CALL on a full stack. Safe (with SP above 16, a state no run reaches, also raised: log entry 8). -/
  | stackOverflow
  /-- R203. Raised by RET on an empty stack. Safe. -/
  | stackUnderflow
  /-- R204. Raised by decode, with the opcode fetched. Safe. -/
  | unknownInstruction (op : Word)
  /-- R205. Raised by SKP and SKNP with Vx > 15 and by the SET_KEY event. Safe. -/
  | invalidKey
  deriving DecidableEq, Repr

/-- Where the model gives no next state. -/
inductive Refusal where
  /-- An instruction without a meaning; raised in exec's arm only. Safe. -/
  | notModelled (mnemonic : String)
  /-- R154: LD F,Vx with Vx > 0xF in a core built with FX29_OOR = refuse, "the model gives this STEP no meaning". Safe. -/
  | fontDigitOutOfRange
  /-- RET with SP above 16, a state no run reaches: STACK has no slot SP - 1 (R27, R28; log entry 8). Safe. -/
  | stackPointerOutOfRange
  deriving DecidableEq, Repr

/-- The outcome of an instruction or of an event. -/
abbrev Result := Host.Outcome State Fault Refusal

/-- The state at power-on of a core built with the parameters given, R5's defaults where none are: the state after one RESET with no
key pressed (R38, R241). -/
def State.powerOn (params : Params := defaultParams) : State :=
  { v := Vector.replicate 16 0, i := 0, pc := progBase, sp := 0, stack := Vector.replicate 16 0, dt := 0, st := 0, mem := []
    fb := Vector.replicate 32 (Vector.replicate 64 false), keys := Vector.replicate 16 false, draws := 0
    params, hostEvents := [] }

/-- The machine right after reset: the power-on state of the core that is given no argument, so with the defaults of R5. -/
def State.reset : State := State.powerOn

end Sys2Proof.Machine
end

