-- ==== Sys2Proof/Machine/Memory.lean ====
section
/-! DEFINITION. MEM as plain data (spec/10_state.md R32, spec/20_memory.md R58): what an unlisted address reads as, reading
and writing one byte, and the canonical form. -/

namespace Sys2Proof.Machine

/-- The reset contents of an address, which an unlisted address reads as: FONT_DATA at FONT_BASE, zero elsewhere (R36, R38). -/
def unlistedByte (p : Params) (a : Nat) : Byte :=
  if h : p.fontBase.val ≤ a ∧ a < p.fontBase.val + 80 then p.fontData.get ⟨a - p.fontBase.val, by omega⟩ else 0

namespace Memory

/-- The byte at an address: the entry listed for it, or what an unlisted address reads as. -/
def get (p : Params) : Memory → Nat → Byte
  | [], a => unlistedByte p a
  | (b, w) :: m, a => if a = b then w else get p m a

/-- List a byte for an address, in the place its address has. -/
def insert (a : Nat) (w : Byte) : Memory → Memory
  | [] => [(a, w)]
  | (b, u) :: m => if a < b then (a, w) :: (b, u) :: m else if a = b then (a, w) :: m else (b, u) :: insert a w m

/-- List nothing for an address. -/
def erase (a : Nat) (m : Memory) : Memory := m.filter fun c => c.1 != a

/-- Write a byte: an address that gets its reset contents back is no longer listed. -/
def set (p : Params) (m : Memory) (a : Nat) (w : Byte) : Memory :=
  if w = unlistedByte p a then erase a m else insert a w m

/-- Addresses strictly rising. -/
def rising : Memory → Bool
  | [] => true
  | [_] => true
  | c :: d :: m => c.1 < d.1 && rising (d :: m)

/-- The canonical form: addresses strictly rising and inside MEM (R32), no entry equal to what an unlisted address reads as. -/
def wf (p : Params) (m : Memory) : Bool :=
  rising m && m.all fun c => c.1 < 4096 && c.2 != unlistedByte p c.1

end Memory

end Sys2Proof.Machine
end

