-- ==== Sys2Proof/Machine/Ops.lean ====
section
/-! DEFINITION. The named operations every meaning is written over: one accessor and one update per piece of state, the memory
primitives (spec/00_scope.md R10), the call stack (spec/10_state.md R28), and raising a fault (spec/00_scope.md R11). -/

namespace Sys2Proof.Machine

/-! ## One accessor and one update per piece of state -/

/-- `V[r]` (R8). -/
def State.reg (s : State) (r : Reg) : Byte := s.v.get r

/-- `V[r] <- b` (R8). -/
def State.setReg (s : State) (r : Reg) (b : Byte) : State := { s with v := s.v.set r.val b r.isLt }

/-- `I <- w` (R26). -/
def State.setI (s : State) (w : Word) : State := { s with i := w }

/-- `PC <- w` (R23). -/
def State.setPc (s : State) (w : Word) : State := { s with pc := w }

/-- `SP <- b` (R27). -/
def State.setSp (s : State) (b : Byte) : State := { s with sp := b }

/-- `STACK[j]` (R28). -/
def State.slot (s : State) (j : Fin 16) : Word := s.stack.get j

/-- `STACK[j] <- w` (R28). -/
def State.setSlot (s : State) (j : Fin 16) (w : Word) : State := { s with stack := s.stack.set j.val w j.isLt }

/-- `DT <- b` (R29). -/
def State.setDt (s : State) (b : Byte) : State := { s with dt := b }

/-- `ST <- b` (R30). -/
def State.setSt (s : State) (b : Byte) : State := { s with st := b }

/-- `MEM[a]`, before any check of the bound (R32). -/
def State.byteAt (s : State) (a : Nat) : Byte := Memory.get s.params s.mem a

/-- `MEM[a] <- b`, before any check of the bound (R32). -/
def State.setByte (s : State) (a : Nat) (b : Byte) : State := { s with mem := Memory.set s.params s.mem a b }

/-- `FB[y][x]` (R34). -/
def Framebuffer.pixel (fb : Framebuffer) (x : Fin 64) (y : Fin 32) : Bool := (fb.get y).get x

/-- `FB[y][x] <- FB[y][x] XOR 1` (R172). -/
def Framebuffer.flip (fb : Framebuffer) (x : Fin 64) (y : Fin 32) : Framebuffer :=
  fb.set y.val ((fb.get y).set x.val (!(fb.pixel x y)) x.isLt) y.isLt

/-- Every pixel off (R170). -/
def Framebuffer.blank : Framebuffer := Vector.replicate 32 (Vector.replicate 64 false)

/-- `FB[y][x]` of the core (R34). -/
def State.pixel (s : State) (x : Fin 64) (y : Fin 32) : Bool := s.fb.pixel x y

/-- The whole display at once, as CLS and DRW write it (R34). -/
def State.setFb (s : State) (fb : Framebuffer) : State := { s with fb := fb }

/-- `KEY[k]` (R35). -/
def State.key (s : State) (k : Key) : Bool := s.keys.get k

/-- `KEY[k] <- pressed`, the host's write path only (R221). -/
def State.setKeyBit (s : State) (k : Key) (pressed : Bool) : State := { s with keys := s.keys.set k.val pressed k.isLt }

/-- One more free value has been drawn (R37; log entry 3). -/
def State.countDraw (s : State) : State := { s with draws := s.draws + 1 }

/-- What the host issues next (log entry 5). -/
def State.setHostEvents (s : State) (es : List Event) : State := { s with hostEvents := es }

/-! ## The program counter (R24) -/

/-- `pc <- pc + 2`. -/
def State.advance (s : State) : State := s.setPc (s.pc + 2)

/-- A skip: `pc <- pc + 4` where the condition holds, else `pc <- pc + 2` (R109). -/
def State.skipIf (s : State) (condition : Bool) : State := s.setPc (if condition then s.pc + 4 else s.pc + 2)

/-! ## Raising a fault, and ending an instruction -/

/-- `raise f`: the STEP ends with the fault as its result and every write it had made is dropped; nothing is saved and
control goes nowhere (R11, R213). -/
def raise (f : Fault) : Result := .fault f

/-- The outcome of writes that may have raised a fault on the way. -/
def finish : Except Fault State → Result
  | .ok t => .next t
  | .error f => raise f

/-- The same, with `pc <- pc + 2` at the end. -/
def finishAdvanced : Except Fault State → Result
  | .ok t => .next t.advance
  | .error f => raise f

/-! ## The register file's range-checked interface (R206) -/

/-- Reading a register by a number that may be too wide: `InvalidRegister` outside 0 to 15. -/
def regFileGet (s : State) (n : Nat) : Except Fault Byte :=
  match reg? n with
  | some r => .ok (s.reg r)
  | none => .error .invalidRegister

/-- Writing a register by a number that may be too wide: `InvalidRegister` outside 0 to 15. -/
def regFileSet (s : State) (n : Nat) (b : Byte) : Except Fault State :=
  match reg? n with
  | some r => .ok (s.setReg r b)
  | none => .error .invalidRegister

/-! ## The memory primitives (R10, R50 to R53) -/

/-- `MemRead(a, 1)` (R50). -/
def memRead8 (s : State) (a : Nat) : Except Fault Byte :=
  if a ≤ 4095 then .ok (s.byteAt a) else .error .outOfBounds

/-- `MemRead(a, 2)`, big-endian (R51, R54). -/
def memRead16 (s : State) (a : Nat) : Except Fault Word :=
  if a ≤ 4094 then .ok (wordOfBytes (s.byteAt a) (s.byteAt (a + 1))) else .error .outOfBounds

/-- `MemWrite(a, 1, b)` (R52). -/
def memWrite8 (s : State) (a : Nat) (b : Byte) : Except Fault State :=
  if a ≤ 4095 then .ok (s.setByte a b) else .error .outOfBounds

/-- Reads of `n` bytes at `a`, `a + 1`, ..., in this order, the first fault ending them (R56, R151). -/
def readBytes (s : State) (a : Nat) : Nat → Except Fault (List Byte)
  | 0 => .ok []
  | n + 1 =>
    match memRead8 s a, readBytes s (a + 1) n with
    | .ok b, .ok bs => .ok (b :: bs)
    | .error f, _ => .error f
    | .ok _, .error f => .error f

/-- Writes of the bytes at `a`, `a + 1`, ..., in this order, the first fault ending them (R56, R151). -/
def writeBytes (s : State) (a : Nat) : List Byte → Except Fault State
  | [] => .ok s
  | b :: bs =>
    match memWrite8 s a b with
    | .ok t => writeBytes t (a + 1) bs
    | .error f => .error f

/-! ## The call stack (R28) -/

/-- `push(w)`: `StackOverflow` when the stack is full (R28, R202). -/
def push (s : State) (w : Word) : Except Fault State :=
  if h : s.sp.toNat < 16 then .ok ((s.setSlot ⟨s.sp.toNat, h⟩ w).setSp (s.sp + 1)) else .error .stackOverflow

/-- `STACK[SP - 1]`, the top of a stack that is not empty; none where SP - 1 is no slot (log entry 8). -/
def top? (s : State) : Option Word :=
  if h : s.sp.toNat - 1 < 16 then some (s.slot ⟨s.sp.toNat - 1, h⟩) else none

/-- `pop()` into PC: `StackUnderflow` when the stack is empty; the slot keeps its contents (R28, R100, R203). -/
def popIntoPc (s : State) : Result :=
  if s.sp = 0 then raise .stackUnderflow
  else
    match top? s with
    | some w => .next ((s.setSp (s.sp - 1)).setPc w)
    | none => .refused .stackPointerOutOfRange

/-! ## Free values (R37) -/

/-- The next pseudo-random byte: a draw under no law (R132; log entry 3). -/
def drawnByte (s : State) : Byte := Config.rndByte s.draws

/-- The free value of LD F,Vx for a digit the spec gives no address (R154; log entry 2). -/
def drawnFontAddress (s : State) : Word := Config.freeFontAddress s.draws

end Sys2Proof.Machine
end

