-- ==== Sys2Proof/Machine/Flags.lean ====
section
/-! DEFINITION. Every flag computation of the machine (spec/10_state.md R22, spec/41_load_alu.md R120): a flag is the byte
0x00 or 0x01, computed from the operand values before the operation and written to VF last (R133). -/

namespace Sys2Proof.Machine

/-- A flag value, exactly 0x00 or 0x01 (R22). -/
def flagByte (b : Bool) : Byte := if b then 1 else 0

/-- The carry of `a + b`: 1 exactly when the sum exceeds 255 (R120). -/
def carryFlag (a b : Byte) : Byte := flagByte (255 < a.toNat + b.toNat)

/-- The flag of `a - b`: 1 exactly when there is no borrow, `a >= b` (R120). -/
def noBorrowFlag (a b : Byte) : Byte := flagByte (b.toNat ≤ a.toNat)

/-- The bit a right shift pushes out, `a[0]` (R120). -/
def shiftedOutRight (a : Byte) : Byte := flagByte (a.getLsbD 0)

/-- The bit a left shift pushes out, `a[7]` (R120). -/
def shiftedOutLeft (a : Byte) : Byte := flagByte (a.getLsbD 7)

/-- The overflow bit of `I + Vx` under FX1E_VF = on: 1 when the sum exceeds 0xFFF (R152). -/
def indexOverflowFlag (i : Word) (v : Byte) : Byte := flagByte (0xFFF < i.toNat + v.toNat)

/-- The result to `V[x]`, then the flag to VF, in this order: with x = 0xF the flag wins (R133). -/
def State.setResultThenFlag (s : State) (x : Reg) (result flag : Byte) : State := (s.setReg x result).setReg VF flag

end Sys2Proof.Machine
end

