-- ==== Sys2Proof/Machine/Operands.lean ====
section
/-! DEFINITION. The operand forms: immediates widened (spec/30_encoding.md R83), the shift source (R129, R131), registers V0 to
Vx (R158), I and its offsets (R151, R152), key numbers (R188), font addresses (R154), decimal digits (R156), sprite geometry
(R171 to R173). -/

namespace Sys2Proof.Machine

/-! ## Addresses and registers -/

/-- `zext_16(nnn)` (R83). -/
def addrWord (nnn : Addr) : Word := nnn.setWidth 16

/-- `zext_16(v)` (R83). -/
def byteWord (v : Byte) : Word := v.setWidth 16

/-- The value SHR and SHL shift: `V[x]`, or `V[y]` when SHIFT_SRC = vy (R129, R131). -/
def shiftOperand (s : State) (x y : Reg) : Byte :=
  match s.params.shiftSrc with
  | .vx => s.reg x
  | .vy => s.reg y

/-- V0 to VF, in order. -/
def allRegs : List Reg := [0, 1, 2, 3, 4, 5, 6, 7, 8, 9, 10, 11, 12, 13, 14, 15]

/-- V0 to Vx inclusive, `x + 1` registers (R158). -/
def regsUpTo (x : Reg) : List Reg := allRegs.take (x.val + 1)

/-- `V[r] <- t[r]` for the registers and bytes given, in this order (R160). -/
def setRegs (s : State) : List Reg → List Byte → State
  | r :: rs, b :: bs => setRegs (s.setReg r b) rs bs
  | _, _ => s

/-- What LD [I],Vx and LD Vx,[I] leave in I: unchanged, or `(I + x + 1) mod 65536` under LDST_I = add_x_plus_1 (R158, R160). -/
def State.stepIndex (s : State) (x : Reg) : State :=
  match s.params.ldstI with
  | .unchanged => s
  | .addXPlus1 => s.setI (s.i + BitVec.ofNat 16 (x.val + 1))

/-! ## Keys (R188, R189) -/

/-- The key a register's value names: `InvalidKey` above 15 (R188). -/
def keyOf (v : Byte) : Except Fault Key :=
  if h : v.toNat < 16 then .ok ⟨v.toNat, h⟩ else .error .invalidKey

/-- Keys 0 to 15, in order. -/
def allKeys : List Key := [0, 1, 2, 3, 4, 5, 6, 7, 8, 9, 10, 11, 12, 13, 14, 15]

/-- The least pressed key, if any is pressed (R189). -/
def leastPressed (s : State) : Option Key := allKeys.find? fun k => s.key k

/-! ## Decimal digits (R156) and font addresses (R154) -/

/-- The hundreds, tens and ones digit of a byte, one digit a byte, most significant first (R156). -/
def bcdDigits (v : Byte) : List Byte :=
  [BitVec.ofNat 8 (v.toNat / 100), BitVec.ofNat 8 (v.toNat / 10 % 10), BitVec.ofNat 8 (v.toNat % 10)]

/-- `FONT_BASE + 5 * d` (R154). -/
def fontAddress (p : Params) (d : Nat) : Word := BitVec.ofNat 16 (p.fontBase.val + 5 * d)

/-! ## Sprites (R171 to R173) -/

/-- A place on the display: column and row (R34). -/
structure Coord where
  x : Fin 64
  y : Fin 32
  deriving DecidableEq, Repr

/-- Pixel column `c` of a sprite row: bit `7 - c` (R171). -/
def spriteBit (row : Byte) (c : Nat) : Bool := row.getLsbD (7 - c)

/-- Where pixel column `c` of sprite row `r` falls when the sprite's corner is at (vx, vy): every coordinate wrapped (R172), or
the corner wrapped and what lies past the right or bottom edge dropped (R173). -/
def pixelTarget (edge : DrwEdge) (vx vy : Byte) (r c : Nat) : Option Coord :=
  match edge with
  | .wrap => some ⟨Fin.ofNat 64 (vx.toNat + c), Fin.ofNat 32 (vy.toNat + r)⟩
  | .clip =>
    if h : vx.toNat % 64 + c < 64 ∧ vy.toNat % 32 + r < 32 then some ⟨⟨vx.toNat % 64 + c, h.1⟩, ⟨vy.toNat % 32 + r, h.2⟩⟩
    else none

/-- The display places the 1 bits of one sprite row invert (R171). -/
def rowTargets (edge : DrwEdge) (vx vy : Byte) (r : Nat) (row : Byte) : List Coord :=
  [0, 1, 2, 3, 4, 5, 6, 7].filterMap fun c => if spriteBit row c then pixelTarget edge vx vy r c else none

/-- The display places a sprite inverts, rows numbered from `r` on (R172). -/
def spriteTargets (edge : DrwEdge) (vx vy : Byte) (r : Nat) : List Byte → List Coord
  | [] => []
  | row :: rows => rowTargets edge vx vy r row ++ spriteTargets edge vx vy (r + 1) rows

/-- Inverting the places in order, remembering whether one of them was on (R172). -/
def drawTargets (fb : Framebuffer) (collision : Bool) : List Coord → Framebuffer × Bool
  | [] => (fb, collision)
  | c :: cs => drawTargets (fb.flip c.x c.y) (collision || fb.pixel c.x c.y) cs

end Sys2Proof.Machine
end

