-- ==== Sys2Proof/Machine/ControlFlow.lean ====
section
/-! DEFINITION. The control transfer instructions (spec/40_control_flow.md). None writes a flag (VF) and none but CALL and RET faults. -/

namespace Sys2Proof.Machine

/-- RET (R100). -/
def execRet (s : State) : Result := popIntoPc s

/-- JP addr (R101). -/
def execJp (nnn : Addr) (s : State) : Result := .next (s.setPc (addrWord nnn))

/-- CALL addr (R102): the address of the next instruction is pushed. -/
def execCall (nnn : Addr) (s : State) : Result :=
  match push s (s.pc + 2) with
  | .ok t => .next (t.setPc (addrWord nnn))
  | .error f => raise f

/-- SE Vx,byte (R103). -/
def execSeByte (x : Reg) (kk : Byte) (s : State) : Result := .next (s.skipIf (s.reg x == kk))

/-- SNE Vx,byte (R104). -/
def execSneByte (x : Reg) (kk : Byte) (s : State) : Result := .next (s.skipIf (s.reg x != kk))

/-- SE Vx,Vy (R105). -/
def execSeReg (x y : Reg) (s : State) : Result := .next (s.skipIf (s.reg x == s.reg y))

/-- SNE Vx,Vy (R106). -/
def execSneReg (x y : Reg) (s : State) : Result := .next (s.skipIf (s.reg x != s.reg y))

/-- JP V0,addr (R107): the sum is not reduced to 12 bits. -/
def execJpV0 (nnn : Addr) (s : State) : Result := .next (s.setPc (addrWord nnn + byteWord (s.reg V0)))

end Sys2Proof.Machine
end

