-- ==== Sys2Proof/Machine/Display.lean ====
section
/-! DEFINITION. The display instructions (spec/43_display.md). -/

namespace Sys2Proof.Machine

/-- CLS (R170): every pixel off; no flag. -/
def execCls (s : State) : Result := .next (s.setFb Framebuffer.blank).advance

/-- DRW Vx,Vy,nibble (R172, R173): the coordinates are read before any write, all `n` sprite bytes are read first, then the
1 bits invert their pixels, and VF is 1 if one of those was on, written last. -/
def execDrw (x y : Reg) (n : Nibble) (s : State) : Result :=
  match readBytes s s.i.toNat n.toNat with
  | .ok rows =>
    let drawn := drawTargets s.fb false (spriteTargets s.params.drwEdge (s.reg x) (s.reg y) 0 rows)
    .next ((s.setFb drawn.1).setReg VF (flagByte drawn.2)).advance
  | .error f => raise f

end Sys2Proof.Machine
end

