-- ==== Sys2Proof/Machine/IndexMemory.lean ====
section
/-! DEFINITION. The index register and memory instructions (spec/42_index_memory.md). Every byte goes through a bounds-checked
primitive at `I + k`, a natural number that is never wrapped (R53, R151); a fault writes nothing (R11). -/

namespace Sys2Proof.Machine

/-- LD I,addr (R150). -/
def execLdI (nnn : Addr) (s : State) : Result := .next (s.setI (addrWord nnn)).advance

/-- ADD I,Vx (R152): modulo 65536; VF only under FX1E_VF = on, and last. -/
def execAddI (x : Reg) (s : State) : Result :=
  match s.params.fx1eVf with
  | .off => .next (s.setI (s.i + byteWord (s.reg x))).advance
  | .on => .next ((s.setI (s.i + byteWord (s.reg x))).setReg VF (indexOverflowFlag s.i (s.reg x))).advance

/-- LD F,Vx (R154): the sprite of a digit 0 to 0xF; above 0xF as FX29_OOR says (log entry 2). -/
def execLdF (x : Reg) (s : State) : Result :=
  if (s.reg x).toNat ≤ 0xF then .next (s.setI (fontAddress s.params (s.reg x).toNat)).advance
  else
    match s.params.fx29Oor with
    | .refuse => .refused .fontDigitOutOfRange
    | .mask => .next (s.setI (fontAddress s.params (s.reg x &&& 0x0F#8).toNat)).advance
    | .linear => .next (s.setI (fontAddress s.params (s.reg x).toNat)).advance
    | .free => .next (s.countDraw.setI (drawnFontAddress s)).advance

/-- LD B,Vx (R156): three decimal digits at I, I + 1, I + 2. -/
def execLdB (x : Reg) (s : State) : Result := finishAdvanced (writeBytes s s.i.toNat (bcdDigits (s.reg x)))

/-- LD [I],Vx (R158): V0 to Vx to memory from I on. -/
def execStoreRegs (x : Reg) (s : State) : Result :=
  match writeBytes s s.i.toNat ((regsUpTo x).map s.reg) with
  | .ok t => .next (t.stepIndex x).advance
  | .error f => raise f

/-- LD Vx,[I] (R160): V0 to Vx from memory from I on, all reads first. -/
def execLoadRegs (x : Reg) (s : State) : Result :=
  match readBytes s s.i.toNat (x.val + 1) with
  | .ok bs => .next ((setRegs s (regsUpTo x) bs).stepIndex x).advance
  | .error f => raise f

end Sys2Proof.Machine
end

