-- ==== Sys2Proof/Machine/InputTimers.lean ====
section
/-! DEFINITION. The input and timer instructions (spec/44_input_timers.md). None writes a flag. -/

namespace Sys2Proof.Machine

/-- SKP Vx (R185, R188). -/
def execSkp (x : Reg) (s : State) : Result :=
  match keyOf (s.reg x) with
  | .ok k => .next (s.skipIf (s.key k))
  | .error f => raise f

/-- SKNP Vx (R186, R188). -/
def execSknp (x : Reg) (s : State) : Result :=
  match keyOf (s.reg x) with
  | .ok k => .next (s.skipIf (!s.key k))
  | .error f => raise f

/-- LD Vx,DT (R187). -/
def execLdVxDt (x : Reg) (s : State) : Result := .next (s.setReg x s.dt).advance

/-- LD Vx,K (R189): the least pressed key; with none pressed nothing changes, PC included, and the STEP reports it awaits a key. -/
def execLdVxK (x : Reg) (s : State) : Result :=
  match leastPressed s with
  | some k => .next (s.setReg x (BitVec.ofNat 8 k.val)).advance
  | none => .next s

/-- LD DT,Vx (R190). -/
def execLdDtVx (x : Reg) (s : State) : Result := .next (s.setDt (s.reg x)).advance

/-- LD ST,Vx (R191). -/
def execLdStVx (x : Reg) (s : State) : Result := .next (s.setSt (s.reg x)).advance

end Sys2Proof.Machine
end

