-- ==== Sys2Proof/Machine/LoadAlu.lean ====
section
/-! DEFINITION. Register load, arithmetic, logic and random (spec/41_load_alu.md). Arithmetic is on unsigned bytes, modulo 256
(R120); the five flag-writing operations write VF last (R133). None can fault. -/

namespace Sys2Proof.Machine

/-- LD Vx,byte (R121). -/
def execLdByte (x : Reg) (kk : Byte) (s : State) : Result := .next (s.setReg x kk).advance

/-- ADD Vx,byte (R122): no flag. -/
def execAddByte (x : Reg) (kk : Byte) (s : State) : Result := .next (s.setReg x (s.reg x + kk)).advance

/-- LD Vx,Vy (R123). -/
def execLdReg (x y : Reg) (s : State) : Result := .next (s.setReg x (s.reg y)).advance

/-- OR Vx,Vy (R124): no flag. -/
def execOrReg (x y : Reg) (s : State) : Result := .next (s.setReg x (s.reg x ||| s.reg y)).advance

/-- AND Vx,Vy (R125): no flag. -/
def execAndReg (x y : Reg) (s : State) : Result := .next (s.setReg x (s.reg x &&& s.reg y)).advance

/-- XOR Vx,Vy (R126): no flag. -/
def execXorReg (x y : Reg) (s : State) : Result := .next (s.setReg x (s.reg x ^^^ s.reg y)).advance

/-- ADD Vx,Vy (R127): VF is the carry. -/
def execAddReg (x y : Reg) (s : State) : Result :=
  .next (s.setResultThenFlag x (s.reg x + s.reg y) (carryFlag (s.reg x) (s.reg y))).advance

/-- SUB Vx,Vy (R128): VF is 1 where there is no borrow. -/
def execSubReg (x y : Reg) (s : State) : Result :=
  .next (s.setResultThenFlag x (s.reg x - s.reg y) (noBorrowFlag (s.reg x) (s.reg y))).advance

/-- SHR Vx,Vy (R129): VF is the bit shifted out. -/
def execShr (x y : Reg) (s : State) : Result :=
  .next (s.setResultThenFlag x (shiftOperand s x y >>> 1) (shiftedOutRight (shiftOperand s x y))).advance

/-- SUBN Vx,Vy (R130): the reverse subtraction. -/
def execSubnReg (x y : Reg) (s : State) : Result :=
  .next (s.setResultThenFlag x (s.reg y - s.reg x) (noBorrowFlag (s.reg y) (s.reg x))).advance

/-- SHL Vx,Vy (R131): VF is the bit shifted out. -/
def execShl (x y : Reg) (s : State) : Result :=
  .next (s.setResultThenFlag x (shiftOperand s x y <<< 1) (shiftedOutLeft (shiftOperand s x y))).advance

/-- RND Vx,byte (R132): a drawn byte AND the immediate. -/
def execRnd (x : Reg) (kk : Byte) (s : State) : Result := .next (s.countDraw.setReg x (drawnByte s &&& kk)).advance

end Sys2Proof.Machine
end

