-- ==== Sys2Proof/Machine/Events.lean ====
section
/-! DEFINITION. The host events other than STEP: TICK (spec/60_exceptions.md R216), SET_KEY (R221), RESET
(spec/70_reset_and_hazards.md R240) and LOAD (R244). Each happens wholly between two STEPs (R209). -/

namespace Sys2Proof.Machine

/-- A timer counts down while nonzero and stays at 0 (R216). -/
def countDown (t : Byte) : Byte := if t = 0 then 0 else t - 1

/-- TICK: both timers, each on its own condition (R216). -/
def tick (s : State) : State := (s.setDt (countDown s.dt)).setSt (countDown s.st)

/-- SET_KEY(k, pressed): one bit of the latch, `InvalidKey` outside 0 to 15 (R221). -/
def setKey (k : Nat) (pressed : Bool) (s : State) : Except Fault State :=
  if h : k < 16 then .ok (s.setKeyBit ⟨k, h⟩ pressed) else .error .invalidKey

/-- RESET (R240): everything of R38 but KEY. The parameters are no state of the core (R39), the draws go on (log entry 3), and
what the host issues next is the host's. -/
def resetCore (s : State) : State :=
  { State.powerOn s.params with keys := s.keys, draws := s.draws, hostEvents := s.hostEvents }

/-- The bytes of a program into memory from `offset` on, in ascending order (R244, R245). -/
def copyBytes (s : State) (offset : Nat) : List Byte → State
  | [] => s
  | b :: bs => copyBytes (s.setByte offset b) (offset + 1) bs

/-- LOAD(bytes, offset): memory only; `OutOfBounds`, and nothing written, past 4096 (R244). -/
def load (bytes : List Byte) (offset : Nat) (s : State) : Except Fault State :=
  if offset + bytes.length > 4096 then .error .outOfBounds else .ok (copyBytes s offset bytes)

end Sys2Proof.Machine
end

