-- ==== Sys2Proof/Machine/Cycle.lean ====
section
/-! DEFINITION. The STEP event (spec/30_encoding.md R84): fetch, decode, execute, in this order, the first fault ending it; and
any event delivered to the core (spec/00_scope.md R6). -/

namespace Sys2Proof.Machine

/-- The opcode at PC: two bytes, big-endian, no alignment check (R51, R54, R55, R84). -/
def fetch (s : State) : Except Fault Word := memRead16 s s.pc.toNat

/-- The fault of bytes that are no instruction (R204). A fetch gives two bytes, so `truncated` does not arise. -/
def decodeFault : DecodeError → Fault
  | .unknownInstruction op => .unknownInstruction op
  | .truncated _ => .outOfBounds

/-- The instruction at PC, or the fault of fetching or decoding it (R84, R212). -/
def nextInstr (s : State) : Except Fault Instr :=
  match fetch s with
  | .ok op =>
    match decodeWord op with
    | .ok i => .ok i
    | .error e => .error (decodeFault e)
  | .error f => .error f

/-- STEP: exactly one instruction (R84). -/
def runStep (s : State) : Result :=
  match nextInstr s with
  | .ok i => exec i s
  | .error f => raise f

/-- One whole event (R6). -/
def deliver (e : Event) (s : State) : Result :=
  match e with
  | .step => runStep s
  | .tick => .next (tick s)
  | .setKey k pressed => finish (setKey k pressed s)
  | .reset => .next (resetCore s)
  | .load bytes offset => finish (load bytes offset s)

end Sys2Proof.Machine
end

