-- ==== Sys2Proof/Machine/Step.lean ====
section
/-! DEFINITION. One step of the machine: the next event of the host, STEP where the host has listed none (spec/00_scope.md R6;
log entry 5); and how an instruction word is placed for the next step. -/

namespace Sys2Proof.Machine

/-- The next event happens, whole (R6). -/
def step (s : State) : Host.Outcome State Fault Refusal :=
  match s.hostEvents with
  | [] => runStep s
  | e :: rest => deliver e (s.setHostEvents rest)

/-- Where the next fetch can succeed: PC, or 0x200 where PC is above 0xFFE (R84). -/
def fetchPlace (s : State) : Word := if s.pc.toNat ≤ 4094 then s.pc else progBase

/-- The state with an instruction word stored where the next step fetches: its two bytes at PC and PC + 1, big-endian (R54),
and no host event before the STEP. It stands for the LOAD of a program (log entry 7). -/
def State.withFetchWord (s : State) (nbits w : Nat) : State :=
  let a := (fetchPlace s).toNat
  (((s.setByte a (highByte (tableWord nbits w))).setByte (a + 1) (lowByte (tableWord nbits w))).setPc (fetchPlace s)).setHostEvents []

end Sys2Proof.Machine
end

