-- ==== Sys2Proof/Machine/Disasm.lean ====
section
/-! DEFINITION. `disassemble(addr)` (spec/30_encoding.md R90), optional for a model: the spellings of R89 with the operand values
in the number format of spec/95_test_vectors.md 2.1. The format is no rule of the spec: DESIGN CHOICE, log entry 13. -/

namespace Sys2Proof.Machine

/-- One hexadecimal digit. -/
def hexDigit (b : Nibble) : String :=
  match b.toNat with
  | 0 => "0" | 1 => "1" | 2 => "2" | 3 => "3" | 4 => "4" | 5 => "5" | 6 => "6" | 7 => "7"
  | 8 => "8" | 9 => "9" | 10 => "A" | 11 => "B" | 12 => "C" | 13 => "D" | 14 => "E" | _ => "F"

/-- `V` and the register's hexadecimal digit (R89). -/
def regText (r : Reg) : String := "V" ++ hexDigit (nibbleOfReg r)

/-- An immediate byte, two digits after 0x. -/
def byteText (b : Byte) : String := "0x" ++ hexDigit (b.extractLsb' 4 4) ++ hexDigit (b.extractLsb' 0 4)

/-- An address, three digits after 0x. -/
def addrText (a : Addr) : String :=
  "0x" ++ hexDigit (a.extractLsb' 8 4) ++ hexDigit (a.extractLsb' 4 4) ++ hexDigit (a.extractLsb' 0 4)

/-- A sprite height, in decimal. -/
def nibbleText (n : Nibble) : String :=
  match n.toNat with
  | 10 => "10" | 11 => "11" | 12 => "12" | 13 => "13" | 14 => "14" | 15 => "15"
  | _ => hexDigit n

/-- The text of an instruction (R89). -/
def asmText : Instr → String
  | .cls => "CLS"
  | .ret => "RET"
  | .jp nnn => "JP " ++ addrText nnn
  | .call nnn => "CALL " ++ addrText nnn
  | .seByte x kk => "SE " ++ regText x ++ "," ++ byteText kk
  | .sneByte x kk => "SNE " ++ regText x ++ "," ++ byteText kk
  | .seReg x y => "SE " ++ regText x ++ "," ++ regText y
  | .ldByte x kk => "LD " ++ regText x ++ "," ++ byteText kk
  | .addByte x kk => "ADD " ++ regText x ++ "," ++ byteText kk
  | .ldReg x y => "LD " ++ regText x ++ "," ++ regText y
  | .orReg x y => "OR " ++ regText x ++ "," ++ regText y
  | .andReg x y => "AND " ++ regText x ++ "," ++ regText y
  | .xorReg x y => "XOR " ++ regText x ++ "," ++ regText y
  | .addReg x y => "ADD " ++ regText x ++ "," ++ regText y
  | .subReg x y => "SUB " ++ regText x ++ "," ++ regText y
  | .shr x y => "SHR " ++ regText x ++ "," ++ regText y
  | .subnReg x y => "SUBN " ++ regText x ++ "," ++ regText y
  | .shl x y => "SHL " ++ regText x ++ "," ++ regText y
  | .sneReg x y => "SNE " ++ regText x ++ "," ++ regText y
  | .ldI nnn => "LD I," ++ addrText nnn
  | .jpV0 nnn => "JP V0," ++ addrText nnn
  | .rnd x kk => "RND " ++ regText x ++ "," ++ byteText kk
  | .drw x y n => "DRW " ++ regText x ++ "," ++ regText y ++ "," ++ nibbleText n
  | .skp x => "SKP " ++ regText x
  | .sknp x => "SKNP " ++ regText x
  | .ldVxDt x => "LD " ++ regText x ++ ",DT"
  | .ldVxK x => "LD " ++ regText x ++ ",K"
  | .ldDtVx x => "LD DT," ++ regText x
  | .ldStVx x => "LD ST," ++ regText x
  | .addI x => "ADD I," ++ regText x
  | .ldF x => "LD F," ++ regText x
  | .ldB x => "LD B," ++ regText x
  | .storeRegs x => "LD [I]," ++ regText x
  | .loadRegs x => "LD " ++ regText x ++ ",[I]"

/-- The text of the instruction at an address; none where no opcode can be read there or it is unknown (R90). -/
def disassemble (s : State) (a : Nat) : Option String :=
  match memRead16 s a with
  | .ok op => (lookup op).map asmText
  | .error _ => none

end Sys2Proof.Machine
end

