-- ==== Sys2Proof/Machine/HostView.lean ====
section
/-! DEFINITION. What the host sees of the core: the result of a STEP (spec/60_exceptions.md R230), SOUND_ACTIVE (R224) and the
read-only snapshot (R225). None of it is state, and reading it changes nothing. -/

namespace Sys2Proof.Machine

/-- SOUND_ACTIVE, the level `ST > 0` (R30, R224). -/
def State.soundActive (s : State) : Bool := 0 < s.st.toNat

/-- The summary of a STEP that raised no fault (R230). -/
structure Summary where
  fbDirty     : Bool
  soundActive : Bool
  awaitingKey : Bool
  deriving DecidableEq, Repr

/-- `fb_dirty`: the instruction was CLS or DRW, whether or not a pixel changed (R230). -/
def drawsOnDisplay : Instr → Bool
  | .cls => true
  | .drw _ _ _ => true
  | _ => false

/-- `awaiting_key`: the instruction was LD Vx,K and no key was pressed (R189, R230). -/
def awaitsKey (i : Instr) (s : State) : Bool :=
  match i with
  | .ldVxK _ => leastPressed s == none
  | _ => false

/-- The summary of instruction `i`, run in state `s`, that left state `t` (R230). -/
def summarize (i : Instr) (s t : State) : Summary :=
  { fbDirty := drawsOnDisplay i, soundActive := t.soundActive, awaitingKey := awaitsKey i s }

/-- The result of a STEP as the host receives it: a summary or an error (R230); `noMeaning` where the model refuses. -/
inductive StepResult where
  | ok (summary : Summary)
  | err (f : Fault)
  | noMeaning (r : Refusal)
  deriving DecidableEq, Repr

/-- The result of the STEP event in state `s` (R84, R230). -/
def stepResult (s : State) : StepResult :=
  match nextInstr s with
  | .error f => .err f
  | .ok i =>
    match exec i s with
    | .next t => .ok (summarize i s t)
    | .fault f => .err f
    | .refused r => .noMeaning r

/-- The state a STEP leaves: the next state, or after an error exactly the state before it (R11, R213). After a STEP the model
refuses, to which the spec gives no meaning (R154 under FX29_OOR = refuse), it is the state before it too: DESIGN CHOICE, log entry 16. -/
def afterStep (s : State) : State :=
  match runStep s with
  | .next t => t
  | .fault _ => s
  | .refused _ => s

/-- The state any event leaves; an error of a host event changes nothing either (R232). That a refused STEP changes nothing is the
model's: DESIGN CHOICE, log entry 16. -/
def afterEvent (e : Event) (s : State) : State :=
  match deliver e s with
  | .next t => t
  | .fault _ => s
  | .refused _ => s

/-- The state a sequence of whole events leaves, for a host that goes on after an error (R6, R214); that it can go on
after a refused STEP is the model's: DESIGN CHOICE, log entry 16. -/
def afterEvents : List Event → State → State
  | [], s => s
  | e :: es, s => afterEvents es (afterEvent e s)

/-- How a host boots a program: RESET, then LOAD at 0x200 (spec/70_reset_and_hazards.md R243, R246). -/
def boot (rom : List Byte) (s : State) : State := afterEvents [.reset, .load rom progBase.toNat] s

/-- The snapshot the host may read between events (R225). -/
structure Snapshot where
  v     : Vector Byte 16
  i     : Word
  pc    : Word
  sp    : Byte
  stack : Vector Word 16
  dt    : Byte
  st    : Byte
  mem   : List Byte
  fb    : Framebuffer
  deriving DecidableEq, Repr

/-- The `count` bytes of memory from `a` on, whole, without a bound check: the memory dump of R225 is all 4096. -/
def dump (s : State) (a : Nat) : Nat → List Byte
  | 0 => []
  | count + 1 => s.byteAt a :: dump s (a + 1) count

/-- Reading the snapshot (R225). -/
def State.snapshot (s : State) : Snapshot :=
  { v := s.v, i := s.i, pc := s.pc, sp := s.sp, stack := s.stack, dt := s.dt, st := s.st, mem := dump s 0 4096, fb := s.fb }

end Sys2Proof.Machine
end

