-- ==== Sys2Proof/Safety.lean ====
section
/-! DEFINITION. What counts as a safe run, the machine's invariant, and the words the statements use for what an instruction
leaves unchanged. -/

namespace Sys2Proof.Machine

/-! ## Outcomes -/

/-- The next state of an outcome, where there is one. -/
def nextState? : Result → Option State
  | .next t => some t
  | .fault _ => none
  | .refused _ => none

/-- The fault of an outcome, where there is one. -/
def fault? : Result → Option Fault
  | .next _ => none
  | .fault f => some f
  | .refused _ => none

/-- The refusal of an outcome, where there is one. -/
def refusal? : Result → Option Refusal
  | .next _ => none
  | .fault _ => none
  | .refused r => some r

/-! ## Runs -/

/-- `n` steps that all answer a next state lead from `s` to `t` (spec/60_exceptions.md R214: a fault ends the run). -/
inductive StepsTo : Nat → State → State → Prop where
  | done (s : State) : StepsTo 0 s s
  | more {n : Nat} {s t u : State} : step s = .next t → StepsTo n t u → StepsTo (n + 1) s u

/-- A run of `n` steps from `s` meets no fault and no refusal. -/
def SafeFor (n : Nat) (s : State) : Prop := ∃ t, StepsTo n s t

/-- The conventional end of a program: the instruction at PC is a jump to itself (spec/70_reset_and_hazards.md R249). The machine has no
halt, so this is a property of a state and stops nothing. -/
def AtEnd (s : State) : Prop := ∃ nnn : Addr, nextInstr s = .ok (.jp nnn) ∧ nnn.toNat = s.pc.toNat

/-! ## The invariant -/

/-- What every state of a run has: at most 16 entries on the call stack (R27); PC at most 0x10FE (R25); every return address at
most 0x1000 (R25); memory in its canonical form (R32). -/
structure State.Inv (s : State) : Prop where
  sp_le    : s.sp.toNat ≤ 16
  pc_le    : s.pc.toNat ≤ 0x10FE
  slots_le : ∀ j : Fin 16, (s.slot j).toNat ≤ 0x1000
  mem_wf   : Memory.wf s.params s.mem = true

/-! ## What is left unchanged, from a state `s` to a state `t` -/

/-- Every register but those listed. -/
def KeepsRegsBut (rs : List Reg) (s t : State) : Prop := ∀ r, r ∉ rs → t.reg r = s.reg r

/-- Every byte of memory. -/
def KeepsMemory (s t : State) : Prop := ∀ a, t.byteAt a = s.byteAt a

/-- Every byte of memory outside the `len` bytes at `a`. -/
def KeepsMemoryOutside (a len : Nat) (s t : State) : Prop := ∀ b, (b < a ∨ a + len ≤ b) → t.byteAt b = s.byteAt b

/-- Every pixel. -/
def KeepsDisplay (s t : State) : Prop := ∀ x y, t.pixel x y = s.pixel x y

/-- SP and every slot, dead ones too. -/
def KeepsStack (s t : State) : Prop := t.sp = s.sp ∧ ∀ j, t.slot j = s.slot j

/-- Both timers. -/
def KeepsTimers (s t : State) : Prop := t.dt = s.dt ∧ t.st = s.st

/-- The input latch. -/
def KeepsKeys (s t : State) : Prop := ∀ k, t.key k = s.key k

/-- The parameters of the core and what the host issues next. -/
def KeepsSetting (s t : State) : Prop := t.params = s.params ∧ t.hostEvents = s.hostEvents

/-- Everything but the general registers, PC, I, memory, display, stack, timers: the latch, the setting, the draws taken. -/
def KeepsRest (s t : State) : Prop := KeepsKeys s t ∧ KeepsSetting s t ∧ t.draws = s.draws

/-- Everything but PC and the registers listed: what an instruction that works on registers only leaves. -/
def OnlyRegs (rs : List Reg) (s t : State) : Prop :=
  KeepsRegsBut rs s t ∧ t.i = s.i ∧ KeepsMemory s t ∧ KeepsDisplay s t ∧ KeepsStack s t ∧ KeepsTimers s t ∧ KeepsRest s t

/-- Everything but PC and I. -/
def OnlyIndex (s t : State) : Prop :=
  KeepsRegsBut [] s t ∧ KeepsMemory s t ∧ KeepsDisplay s t ∧ KeepsStack s t ∧ KeepsTimers s t ∧ KeepsRest s t

/-- Everything but PC, SP and the slots. -/
def OnlyStack (s t : State) : Prop :=
  KeepsRegsBut [] s t ∧ t.i = s.i ∧ KeepsMemory s t ∧ KeepsDisplay s t ∧ KeepsTimers s t ∧ KeepsRest s t

/-- Everything but PC, the display and the registers listed. -/
def OnlyDisplay (rs : List Reg) (s t : State) : Prop :=
  KeepsRegsBut rs s t ∧ t.i = s.i ∧ KeepsMemory s t ∧ KeepsStack s t ∧ KeepsTimers s t ∧ KeepsRest s t

/-- Everything but PC, I and memory: what a storing instruction leaves beside the bytes it stores. -/
def OnlyMemoryAndIndex (s t : State) : Prop :=
  KeepsRegsBut [] s t ∧ KeepsDisplay s t ∧ KeepsStack s t ∧ KeepsTimers s t ∧ KeepsRest s t

/-- Everything but PC and the timers. -/
def OnlyTimers (s t : State) : Prop :=
  KeepsRegsBut [] s t ∧ t.i = s.i ∧ KeepsMemory s t ∧ KeepsDisplay s t ∧ KeepsStack s t ∧ KeepsRest s t

/-! ## The order of writes -/

/-- The instruction completes with `result` in `V[x]` and after that `flag` in VF, every other register as it was
(spec/41_load_alu.md R133). -/
def WritesResultThenFlag (i : Instr) (x : Reg) (result flag : Nat) (s : State) : Prop :=
  ∃ t, exec i s = .next t ∧ ∀ q, (t.reg q).toNat = if q = 0xF then flag else if q = x then result else (s.reg q).toNat

end Sys2Proof.Machine
end

