-- ==== Sys2Proof/Certificates/Slice0/Obligations.lean ====
section
/-! DEFINITION. The statements for the provers. Each docstring names the rule of spec/ it formalises; where a clause rests on a
choice of the model or on a decision the spec marks as its own, it says so. -/

open Sys2Proof Sys2Proof.Machine

/-! ## Encoding and decoding (spec/30_encoding.md) -/

/-- Words of spec/95_test_vectors.md 2.1, one of every format of R81, and one unknown word of every family that has some.
That those six are unknown is the spec's own decision D11 (log entry 11), the sub-opcodes of family 8 but 4 are its D24. -/
def Obligations.TableWordsDecodeToTheirInstructions : Prop :=
  decodeWord 0x00E0#16 = .ok .cls ∧
  decodeWord 0x00EE#16 = .ok .ret ∧
  decodeWord 0x2ABC#16 = .ok (.call 0xABC#12) ∧
  decodeWord 0x6A12#16 = .ok (.ldByte 0xA 0x12#8) ∧
  decodeWord 0x8AB4#16 = .ok (.addReg 0xA 0xB) ∧
  decodeWord 0x8ABE#16 = .ok (.shl 0xA 0xB) ∧
  decodeWord 0xD123#16 = .ok (.drw 1 2 3#4) ∧
  decodeWord 0xE1A1#16 = .ok (.sknp 1) ∧
  decodeWord 0xF165#16 = .ok (.loadRegs 1) ∧
  decodeWord 0x0000#16 = .error (.unknownInstruction 0x0000#16) ∧
  decodeWord 0x5AB1#16 = .error (.unknownInstruction 0x5AB1#16) ∧
  decodeWord 0x8AB8#16 = .error (.unknownInstruction 0x8AB8#16) ∧
  decodeWord 0x9ABF#16 = .error (.unknownInstruction 0x9ABF#16) ∧
  decodeWord 0xE19F#16 = .error (.unknownInstruction 0xE19F#16) ∧
  decodeWord 0xF1FF#16 = .error (.unknownInstruction 0xF1FF#16)

/-- R80, R81, R86: no operand bit of any instruction is lost between its opcode, its two bytes and its decoding, and the bytes
after it stay where they are. The sub-opcodes of family 8 are the spec's own D24 (log entry 11). -/
def Obligations.DecodeOfEncodeIsTheInstruction : Prop :=
  ∀ i : Instr, i.wellFormed = true →
    decodeWord (encode i) = .ok i ∧
    ∀ rest : List Byte, decode (encodeBytes i ++ rest) = .ok (i, rest)

/-- R85: a word that decodes is the opcode of what it decodes to; so two words never decode to one instruction, which is the
strict decoding of the spec's own decision D11 (log entry 11). -/
def Obligations.EncodeOfDecodeIsTheWord : Prop :=
  ∀ (op : Word) (i : Instr), decodeWord op = .ok i → encode i = op

/-- R85, R86: a word decodes exactly when a row of the opcode map matches it, then to an instruction of that row; no word
matches two rows; every other word is unknown, with itself as the payload. Decoding exactly by the masks is the spec's own D11,
the rows of family 8 its D24 (log entry 11). -/
def Obligations.DecodingFollowsTheOpcodeMap : Prop :=
  (∀ op : Word, (∃ i, decodeWord op = .ok i) ↔ ∃ r ∈ opcodeTable, op &&& r.mask = r.bits) ∧
  (∀ (op : Word) (i : Instr), decodeWord op = .ok i → ∃ r, i.row? = some r ∧ op &&& r.mask = r.bits) ∧
  (∀ r ∈ opcodeTable, ∀ q ∈ opcodeTable, ∀ op : Word, op &&& r.mask = r.bits → op &&& q.mask = q.bits → r = q) ∧
  (∀ op : Word, (∀ i, decodeWord op ≠ .ok i) → decodeWord op = .error (.unknownInstruction op))

/-- R87: the unknown words, family by family. That they are unknown is the spec's own decision D11 (log entry 11). -/
def Obligations.UnknownWordsAreExactlyThoseListed : Prop :=
  ∀ op : Word, decodeWord op = .error (.unknownInstruction op) ↔
    (op.toNat / 4096 = 0x0 ∧ op.toNat ≠ 0x00E0 ∧ op.toNat ≠ 0x00EE) ∨
    (op.toNat / 4096 = 0x5 ∧ op.toNat % 16 ≠ 0) ∨
    (op.toNat / 4096 = 0x8 ∧ op.toNat % 16 ∈ [0x8, 0x9, 0xA, 0xB, 0xC, 0xD, 0xF]) ∨
    (op.toNat / 4096 = 0x9 ∧ op.toNat % 16 ≠ 0) ∨
    (op.toNat / 4096 = 0xE ∧ op.toNat % 256 ∉ [0x9E, 0xA1]) ∨
    (op.toNat / 4096 = 0xF ∧ op.toNat % 256 ∉ [0x07, 0x0A, 0x15, 0x18, 0x1E, 0x29, 0x33, 0x55, 0x65])

/-! ## The STEP event (spec/30_encoding.md section 3) -/

/-- R84, R54: when the two bytes at PC, the first in bits 15 to 8, decode to `i`, a step runs `i` on the state, and adds nothing;
the host lists no event first (log entry 5), or a STEP, which is then off its list. -/
def Obligations.StepRunsTheDecodedInstruction : Prop :=
  ∀ (s : State) (i : Instr), s.pc.toNat ≤ 0xFFE →
    decodeWord (s.byteAt s.pc.toNat ++ s.byteAt (s.pc.toNat + 1)) = .ok i →
    (s.hostEvents = [] → step s = exec i s) ∧
    ∀ rest, s.hostEvents = .step :: rest → step s = exec i (s.setHostEvents rest)

/-- R84, R201 (a): with PC above 0xFFE a STEP raises OutOfBounds at fetch; no other check is made on PC, an odd PC included, which is the
spec's own decision D4 (log entry 11). The host lists no event first (log entry 5). -/
def Obligations.FetchFaultsAboveFFE : Prop :=
  ∀ s : State, s.hostEvents = [] →
    (0xFFE < s.pc.toNat → step s = .fault .outOfBounds) ∧
    (s.pc.toNat ≤ 0xFFE → fetch s = .ok (s.byteAt s.pc.toNat ++ s.byteAt (s.pc.toNat + 1)))

/-- R204: a STEP that fetches a word of no row raises UnknownInstruction with the word as fetched; the host lists no event first
(log entry 5). -/
def Obligations.UnknownInstructionCarriesTheOpcode : Prop :=
  ∀ s : State, s.hostEvents = [] → s.pc.toNat ≤ 0xFFE →
    (∀ r ∈ opcodeTable, (s.byteAt s.pc.toNat ++ s.byteAt (s.pc.toNat + 1) : Word) &&& r.mask ≠ r.bits) →
    step s = .fault (.unknownInstruction (s.byteAt s.pc.toNat ++ s.byteAt (s.pc.toNat + 1)))

/-- The model's own interface (log entry 7): the word placed is the instruction the very next step runs, from any state. -/
def Obligations.PlacedWordRunsNext : Prop :=
  ∀ (s : State) (nbits w : Nat) (i : Instr), decodeTableWord nbits w = some i →
    step (s.withFetchWord nbits w) = exec i (s.withFetchWord nbits w)

/-! ## Memory (spec/20_memory.md) -/

/-- R50, R51, and of R52 what one write does: the three primitives, inside and outside the array; a write changes one byte and
nothing else. (That a fault takes back the earlier writes of its STEP rests on the spec's own D1: see the storing instructions.) -/
def Obligations.MemoryPrimitivesCheckTheBound : Prop :=
  ∀ (s : State) (a : Nat) (b : Byte),
    memRead8 s a = (if a ≤ 4095 then .ok (s.byteAt a) else .error .outOfBounds) ∧
    memRead16 s a = (if a ≤ 4094 then .ok (s.byteAt a ++ s.byteAt (a + 1)) else .error .outOfBounds) ∧
    (a ≤ 4095 → ∃ t, memWrite8 s a b = .ok t ∧ t.byteAt a = b ∧ KeepsMemoryOutside a 1 s t ∧ OnlyMemoryAndIndex s t ∧
      t.i = s.i ∧ t.pc = s.pc) ∧
    (4095 < a → memWrite8 s a b = .error .outOfBounds)

/-- R64, R54: the bytes executed are the bytes in memory when the STEP begins: a byte just stored is the byte fetched. -/
def Obligations.StoreIsSeenByTheNextFetch : Prop :=
  ∀ (s t : State) (a : Nat) (b : Byte), memWrite8 s a b = .ok t → t.pc.toNat ≤ 0xFFE →
    ∃ op, fetch t = .ok op ∧
      (a = t.pc.toNat → highByte op = b) ∧ (a = t.pc.toNat + 1 → lowByte op = b) ∧
      (a ≠ t.pc.toNat → highByte op = s.byteAt t.pc.toNat) ∧
      (a ≠ t.pc.toNat + 1 → lowByte op = s.byteAt (t.pc.toNat + 1))

/-! ## Control transfer (spec/40_control_flow.md) -/

/-- R101. -/
def Obligations.JumpWritesPc : Prop :=
  ∀ (nnn : Addr) (s : State),
    decodeWord (formNnn 0x1#4 nnn) = .ok (.jp nnn) ∧
    ∃ t, exec (.jp nnn) s = .next t ∧ t.pc.toNat = nnn.toNat ∧ OnlyRegs [] s t

/-- R107: the sum is not reduced to 12 bits (the spec's own decision D2). -/
def Obligations.JumpAddsV0 : Prop :=
  ∀ (nnn : Addr) (s : State),
    decodeWord (formNnn 0xB#4 nnn) = .ok (.jpV0 nnn) ∧
    ∃ t, exec (.jpV0 nnn) s = .next t ∧ t.pc.toNat = nnn.toNat + (s.reg 0).toNat ∧ OnlyRegs [] s t

/-- R102, R202. The slot written and SP as the count of entries are the spec's own decision D5 (R27, R28, log entry 11). -/
def Obligations.CallPushesTheNextAddress : Prop :=
  ∀ (nnn : Addr) (s : State),
    decodeWord (formNnn 0x2#4 nnn) = .ok (.call nnn) ∧
    (∀ j : Fin 16, s.sp.toNat = j.val →
      ∃ t, exec (.call nnn) s = .next t ∧ t.slot j = s.pc + 2 ∧ (∀ k, k ≠ j → t.slot k = s.slot k) ∧
        t.sp.toNat = s.sp.toNat + 1 ∧ t.pc.toNat = nnn.toNat ∧ OnlyStack s t) ∧
    (s.sp.toNat = 16 → exec (.call nnn) s = .fault .stackOverflow ∧ (nextInstr s = .ok (.call nnn) → afterStep s = s))

/-- R100, R203. The slot read at SP - 1, and that the popped slot keeps its value, are the spec's own decision D5 (R28, log entry 11). -/
def Obligations.RetPopsIntoPc : Prop :=
  ∀ s : State,
    decodeWord 0x00EE#16 = .ok .ret ∧
    (∀ j : Fin 16, s.sp.toNat = j.val + 1 →
      ∃ t, exec .ret s = .next t ∧ t.pc = s.slot j ∧ t.sp.toNat = j.val ∧ (∀ k, t.slot k = s.slot k) ∧
        OnlyStack s t) ∧
    (s.sp.toNat = 0 → exec .ret s = .fault .stackUnderflow ∧ (nextInstr s = .ok .ret → afterStep s = s))

/-- The source's property S5, from R100 and R102: CALL then RET goes to the instruction after the CALL, with the stack as deep as
before and everything but the dead slot as before. SP as the count of entries is the spec's own
D5 (log entry 11). -/
def Obligations.ReturnGoesBehindTheCall : Prop :=
  ∀ (nnn : Addr) (s : State), s.sp.toNat < 16 →
    ∃ t u, exec (.call nnn) s = .next t ∧ exec .ret t = .next u ∧
      u.pc = s.pc + 2 ∧ u.sp = s.sp ∧ (∀ k, k.val < s.sp.toNat → u.slot k = s.slot k) ∧ OnlyStack s u

/-- R103, R104: a taken skip goes on at `pc + 4`, an untaken one at `pc + 2`. -/
def Obligations.SkipsCompareWithAByte : Prop :=
  ∀ (x : Reg) (kk : Byte) (s : State),
    decodeWord (formXkk 0x3#4 x kk) = .ok (.seByte x kk) ∧
    decodeWord (formXkk 0x4#4 x kk) = .ok (.sneByte x kk) ∧
    (∃ t, exec (.seByte x kk) s = .next t ∧ (s.reg x = kk → t.pc = s.pc + 4) ∧ (s.reg x ≠ kk → t.pc = s.pc + 2) ∧
      OnlyRegs [] s t) ∧
    (∃ t, exec (.sneByte x kk) s = .next t ∧ (s.reg x ≠ kk → t.pc = s.pc + 4) ∧ (s.reg x = kk → t.pc = s.pc + 2) ∧
      OnlyRegs [] s t)

/-- R105, R106: the same, comparing two registers; a low nibble other than 0 is unknown (the spec's own D11). -/
def Obligations.SkipsCompareTwoRegisters : Prop :=
  ∀ (x y : Reg) (s : State),
    decodeWord (formXyn 0x5#4 x y 0x0#4) = .ok (.seReg x y) ∧
    decodeWord (formXyn 0x9#4 x y 0x0#4) = .ok (.sneReg x y) ∧
    (∀ low : Nibble, low ≠ 0 →
      ∀ i, decodeWord (formXyn 0x5#4 x y low) ≠ .ok i ∧ decodeWord (formXyn 0x9#4 x y low) ≠ .ok i) ∧
    (∃ t, exec (.seReg x y) s = .next t ∧ (s.reg x = s.reg y → t.pc = s.pc + 4) ∧
      (s.reg x ≠ s.reg y → t.pc = s.pc + 2) ∧ OnlyRegs [] s t) ∧
    (∃ t, exec (.sneReg x y) s = .next t ∧ (s.reg x ≠ s.reg y → t.pc = s.pc + 4) ∧
      (s.reg x = s.reg y → t.pc = s.pc + 2) ∧ OnlyRegs [] s t)

/-! ## Load, arithmetic, logic, random (spec/41_load_alu.md) -/

/-- R121, R122, R123: VF is an ordinary register to them. -/
def Obligations.LoadsAndAddImmediateWriteOneRegister : Prop :=
  ∀ (x y : Reg) (kk : Byte) (s : State),
    decodeWord (formXkk 0x6#4 x kk) = .ok (.ldByte x kk) ∧
    decodeWord (formXkk 0x7#4 x kk) = .ok (.addByte x kk) ∧
    decodeWord (formXyn 0x8#4 x y 0x0#4) = .ok (.ldReg x y) ∧
    (∃ t, exec (.ldByte x kk) s = .next t ∧ t.reg x = kk ∧ t.pc = s.pc + 2 ∧ OnlyRegs [x] s t) ∧
    (∃ t, exec (.addByte x kk) s = .next t ∧ (t.reg x).toNat = ((s.reg x).toNat + kk.toNat) % 256 ∧ t.pc = s.pc + 2 ∧
      OnlyRegs [x] s t) ∧
    (∃ t, exec (.ldReg x y) s = .next t ∧ t.reg x = s.reg y ∧ t.pc = s.pc + 2 ∧ OnlyRegs [x] s t)

/-- R124, R125, R126, bit by bit; that they leave VF alone is the spec's own decision D10, their sub-opcodes its D24. -/
def Obligations.LogicWritesNoFlag : Prop :=
  ∀ (x y : Reg) (s : State),
    decodeWord (formXyn 0x8#4 x y 0x1#4) = .ok (.orReg x y) ∧
    decodeWord (formXyn 0x8#4 x y 0x2#4) = .ok (.andReg x y) ∧
    decodeWord (formXyn 0x8#4 x y 0x3#4) = .ok (.xorReg x y) ∧
    (∃ t, exec (.orReg x y) s = .next t ∧
      (∀ k, (t.reg x).getLsbD k = ((s.reg x).getLsbD k || (s.reg y).getLsbD k)) ∧ t.pc = s.pc + 2 ∧ OnlyRegs [x] s t) ∧
    (∃ t, exec (.andReg x y) s = .next t ∧
      (∀ k, (t.reg x).getLsbD k = ((s.reg x).getLsbD k && (s.reg y).getLsbD k)) ∧ t.pc = s.pc + 2 ∧ OnlyRegs [x] s t) ∧
    (∃ t, exec (.xorReg x y) s = .next t ∧
      (∀ k, (t.reg x).getLsbD k = ((s.reg x).getLsbD k ^^ (s.reg y).getLsbD k)) ∧ t.pc = s.pc + 2 ∧ OnlyRegs [x] s t)

/-- R127: sum modulo 256 and carry; with x = 0xF the sum is lost and VF is the carry. -/
def Obligations.AddSetsCarry : Prop :=
  ∀ (x y : Reg) (s : State),
    decodeWord (formXyn 0x8#4 x y 0x4#4) = .ok (.addReg x y) ∧
    ∃ t, exec (.addReg x y) s = .next t ∧
      (x ≠ 0xF → (t.reg x).toNat = ((s.reg x).toNat + (s.reg y).toNat) % 256) ∧
      (t.reg 0xF).toNat = (if 255 < (s.reg x).toNat + (s.reg y).toNat then 1 else 0) ∧
      t.pc = s.pc + 2 ∧ OnlyRegs [x, 0xF] s t

/-- R128, R130: both subtractions, VF = 1 where there is no borrow (the sub-opcodes 5 and 7 are the spec's own, D24). -/
def Obligations.SubtractionsSetNoBorrow : Prop :=
  ∀ (x y : Reg) (s : State),
    decodeWord (formXyn 0x8#4 x y 0x5#4) = .ok (.subReg x y) ∧
    decodeWord (formXyn 0x8#4 x y 0x7#4) = .ok (.subnReg x y) ∧
    (∃ t, exec (.subReg x y) s = .next t ∧
      (x ≠ 0xF → (t.reg x).toNat = ((s.reg x).toNat + 256 - (s.reg y).toNat) % 256) ∧
      (t.reg 0xF).toNat = (if (s.reg y).toNat ≤ (s.reg x).toNat then 1 else 0) ∧
      t.pc = s.pc + 2 ∧ OnlyRegs [x, 0xF] s t) ∧
    (∃ t, exec (.subnReg x y) s = .next t ∧
      (x ≠ 0xF → (t.reg x).toNat = ((s.reg y).toNat + 256 - (s.reg x).toNat) % 256) ∧
      (t.reg 0xF).toNat = (if (s.reg x).toNat ≤ (s.reg y).toNat then 1 else 0) ∧
      t.pc = s.pc + 2 ∧ OnlyRegs [x, 0xF] s t)

/-- R129, R131, for both values of SHIFT_SRC (its values are the spec's own, D8; sub-opcode 6 its D24). -/
def Obligations.ShiftsPushABitIntoVF : Prop :=
  ∀ (x y : Reg) (s : State) (a : Byte),
    (s.params.shiftSrc = .vx ∧ a = s.reg x ∨ s.params.shiftSrc = .vy ∧ a = s.reg y) →
    decodeWord (formXyn 0x8#4 x y 0x6#4) = .ok (.shr x y) ∧
    decodeWord (formXyn 0x8#4 x y 0xE#4) = .ok (.shl x y) ∧
    (∃ t, exec (.shr x y) s = .next t ∧ (x ≠ 0xF → (t.reg x).toNat = a.toNat / 2) ∧ (t.reg 0xF).toNat = a.toNat % 2 ∧
      t.pc = s.pc + 2 ∧ OnlyRegs [x, 0xF] s t) ∧
    (∃ t, exec (.shl x y) s = .next t ∧ (x ≠ 0xF → (t.reg x).toNat = 2 * a.toNat % 256) ∧
      (t.reg 0xF).toNat = a.toNat / 128 ∧ t.pc = s.pc + 2 ∧ OnlyRegs [x, 0xF] s t)

/-- R133: for every choice of the two registers, VF itself and equal ones among them, the result and the flag are computed from the
values before the operation and the flag is written last. Which value the shifts take is SHIFT_SRC's (the spec's own, D8). -/
def Obligations.FlagWriteIsLast : Prop :=
  ∀ (x y : Reg) (s : State) (a b c : Nat), a = (s.reg x).toNat → b = (s.reg y).toNat →
    (s.params.shiftSrc = .vx ∧ c = a ∨ s.params.shiftSrc = .vy ∧ c = b) →
    WritesResultThenFlag (.addReg x y) x ((a + b) % 256) (if 255 < a + b then 1 else 0) s ∧
    WritesResultThenFlag (.subReg x y) x ((a + 256 - b) % 256) (if b ≤ a then 1 else 0) s ∧
    WritesResultThenFlag (.subnReg x y) x ((b + 256 - a) % 256) (if a ≤ b then 1 else 0) s ∧
    WritesResultThenFlag (.shr x y) x (c / 2) (c % 2) s ∧
    WritesResultThenFlag (.shl x y) x (2 * c % 256) (c / 128) s

/-- R22: after each of the seven instructions that write a flag, VF is exactly 0x00 or 0x01. -/
def Obligations.FlagValuesAreZeroOrOne : Prop :=
  ∀ (x y : Reg) (n : Nibble) (s t : State),
    (exec (.addReg x y) s = .next t ∨ exec (.subReg x y) s = .next t ∨ exec (.subnReg x y) s = .next t ∨
      exec (.shr x y) s = .next t ∨ exec (.shl x y) s = .next t ∨ exec (.drw x y n) s = .next t ∨
      (s.params.fx1eVf = .on ∧ exec (.addI x) s = .next t)) →
    t.reg 0xF = 0x00#8 ∨ t.reg 0xF = 0x01#8

/-- R132: some drawn byte AND the immediate; the draw is the model's free value (log entry 3), and nothing is said of it. -/
def Obligations.RandomIsADrawAndTheImmediate : Prop :=
  ∀ (x : Reg) (kk : Byte) (s : State),
    decodeWord (formXkk 0xC#4 x kk) = .ok (.rnd x kk) ∧
    ∃ t, exec (.rnd x kk) s = .next t ∧ t.reg x = Config.rndByte s.draws &&& kk ∧ t.draws = s.draws + 1 ∧
      (∀ k, kk.getLsbD k = false → (t.reg x).getLsbD k = false) ∧
      t.pc = s.pc + 2 ∧ KeepsRegsBut [x] s t ∧ t.i = s.i ∧ KeepsMemory s t ∧ KeepsDisplay s t ∧ KeepsStack s t ∧
      KeepsTimers s t ∧ KeepsKeys s t ∧ KeepsSetting s t

/-! ## Index register and memory (spec/42_index_memory.md) -/

/-- R150. -/
def Obligations.LoadIndexWritesI : Prop :=
  ∀ (nnn : Addr) (s : State),
    decodeWord (formNnn 0xA#4 nnn) = .ok (.ldI nnn) ∧
    ∃ t, exec (.ldI nnn) s = .next t ∧ t.i.toNat = nnn.toNat ∧ t.pc = s.pc + 2 ∧ OnlyIndex s t

/-- R152, for both values of FX1E_VF (the threshold under `on` is the spec's own, D7). -/
def Obligations.AddIndexWrapsAtSixteenBits : Prop :=
  ∀ (x : Reg) (s : State),
    decodeWord (formXkk 0xF#4 x 0x1E#8) = .ok (.addI x) ∧
    ∃ t, exec (.addI x) s = .next t ∧ t.i.toNat = (s.i.toNat + (s.reg x).toNat) % 65536 ∧ t.pc = s.pc + 2 ∧
      (s.params.fx1eVf = .off → KeepsRegsBut [] s t) ∧
      (s.params.fx1eVf = .on → KeepsRegsBut [0xF] s t ∧
        (t.reg 0xF).toNat = (if 0xFFF < s.i.toNat + (s.reg x).toNat then 1 else 0)) ∧
      KeepsMemory s t ∧ KeepsDisplay s t ∧ KeepsStack s t ∧ KeepsTimers s t ∧ KeepsRest s t

/-- R154 for a digit: the address of its sprite, whatever FONT_BASE and FX29_OOR are (the factor 5 is the spec's own, D12). -/
def Obligations.FontDigitAddress : Prop :=
  ∀ (x : Reg) (s : State), (s.reg x).toNat ≤ 0xF →
    decodeWord (formXkk 0xF#4 x 0x29#8) = .ok (.ldF x) ∧
    ∃ t, exec (.ldF x) s = .next t ∧ t.i.toNat = s.params.fontBase.val + 5 * (s.reg x).toNat ∧ t.pc = s.pc + 2 ∧
      OnlyIndex s t

/-- R154 above 0xF, by FX29_OOR; under the model's own value `free` (log entry 2) the instruction completes, I takes some value, and
nothing else but PC and the count of draws changes. -/
def Obligations.FontDigitOutOfRange : Prop :=
  ∀ (x : Reg) (s : State), 0xF < (s.reg x).toNat →
    (s.params.fx29Oor = .refuse → exec (.ldF x) s = .refused .fontDigitOutOfRange) ∧
    (s.params.fx29Oor = .mask → ∃ t, exec (.ldF x) s = .next t ∧
      t.i.toNat = s.params.fontBase.val + 5 * ((s.reg x).toNat % 16) ∧ t.pc = s.pc + 2 ∧ OnlyIndex s t) ∧
    (s.params.fx29Oor = .linear → ∃ t, exec (.ldF x) s = .next t ∧
      t.i.toNat = s.params.fontBase.val + 5 * (s.reg x).toNat ∧ t.pc = s.pc + 2 ∧ OnlyIndex s t) ∧
    (s.params.fx29Oor = .free → ∃ t, exec (.ldF x) s = .next t ∧ t.pc = s.pc + 2 ∧ t.draws = s.draws + 1 ∧
      KeepsRegsBut [] s t ∧ KeepsMemory s t ∧ KeepsDisplay s t ∧ KeepsStack s t ∧ KeepsTimers s t ∧ KeepsKeys s t ∧
      KeepsSetting s t)

/-- R156: hundreds, tens and ones at I, I + 1, I + 2 (the order is the spec's own, D21); a fault writes none of them. -/
def Obligations.BcdStoresThreeDigits : Prop :=
  ∀ (x : Reg) (s : State),
    decodeWord (formXkk 0xF#4 x 0x33#8) = .ok (.ldB x) ∧
    (s.i.toNat + 2 ≤ 4095 → ∃ t, exec (.ldB x) s = .next t ∧
      (t.byteAt s.i.toNat).toNat = (s.reg x).toNat / 100 ∧
      (t.byteAt (s.i.toNat + 1)).toNat = (s.reg x).toNat / 10 % 10 ∧
      (t.byteAt (s.i.toNat + 2)).toNat = (s.reg x).toNat % 10 ∧
      KeepsMemoryOutside s.i.toNat 3 s t ∧ t.i = s.i ∧ t.pc = s.pc + 2 ∧ OnlyMemoryAndIndex s t) ∧
    (4095 < s.i.toNat + 2 → exec (.ldB x) s = .fault .outOfBounds ∧ (nextInstr s = .ok (.ldB x) → afterStep s = s))

/-- R158: V0 to Vx, Vx included (the spec's own D26), to I on; I by LDST_I (the value add_x_plus_1 is the spec's own, D9). -/
def Obligations.StoreRegistersFromI : Prop :=
  ∀ (x : Reg) (s : State),
    decodeWord (formXkk 0xF#4 x 0x55#8) = .ok (.storeRegs x) ∧
    (s.i.toNat + x.val ≤ 4095 → ∃ t, exec (.storeRegs x) s = .next t ∧
      (∀ r : Reg, r ≤ x → t.byteAt (s.i.toNat + r.val) = s.reg r) ∧
      KeepsMemoryOutside s.i.toNat (x.val + 1) s t ∧
      (s.params.ldstI = .unchanged → t.i = s.i) ∧
      (s.params.ldstI = .addXPlus1 → t.i.toNat = (s.i.toNat + x.val + 1) % 65536) ∧
      t.pc = s.pc + 2 ∧ OnlyMemoryAndIndex s t) ∧
    (4095 < s.i.toNat + x.val →
      exec (.storeRegs x) s = .fault .outOfBounds ∧ (nextInstr s = .ok (.storeRegs x) → afterStep s = s))

/-- R160: V0 to Vx, Vx included (the spec's own D26), from I on, the registers above Vx and all of memory unchanged; I by LDST_I
(the spec's own, D9). A fault writes no register. -/
def Obligations.LoadRegistersFromI : Prop :=
  ∀ (x : Reg) (s : State),
    decodeWord (formXkk 0xF#4 x 0x65#8) = .ok (.loadRegs x) ∧
    (s.i.toNat + x.val ≤ 4095 → ∃ t, exec (.loadRegs x) s = .next t ∧
      (∀ r : Reg, r ≤ x → t.reg r = s.byteAt (s.i.toNat + r.val)) ∧
      (∀ r : Reg, x < r → t.reg r = s.reg r) ∧
      (s.params.ldstI = .unchanged → t.i = s.i) ∧
      (s.params.ldstI = .addXPlus1 → t.i.toNat = (s.i.toNat + x.val + 1) % 65536) ∧
      t.pc = s.pc + 2 ∧ KeepsMemory s t ∧ KeepsDisplay s t ∧ KeepsStack s t ∧ KeepsTimers s t ∧ KeepsRest s t) ∧
    (4095 < s.i.toNat + x.val →
      exec (.loadRegs x) s = .fault .outOfBounds ∧ (nextInstr s = .ok (.loadRegs x) → afterStep s = s))

/-- R158 and R160 together: loading what was stored, in any later state whose I points at the block and whose memory is the
stored one, gives the registers back. -/
def Obligations.LoadAfterStoreGivesTheRegistersBack : Prop :=
  ∀ (x : Reg) (s t u : State), exec (.storeRegs x) s = .next t → KeepsMemory t u → u.i = s.i →
    ∃ w, exec (.loadRegs x) u = .next w ∧ ∀ r : Reg, r ≤ x → w.reg r = s.reg r

/-! ## Display (spec/43_display.md) -/

/-- R170; the summary reports the display dirty whatever was on it: the summary is the spec's own D19 (R230), its form log entry 6. -/
def Obligations.ClsTurnsEveryPixelOff : Prop :=
  ∀ s : State,
    decodeWord 0x00E0#16 = .ok .cls ∧
    ∃ t, exec .cls s = .next t ∧ (∀ x y, t.pixel x y = false) ∧ t.pc = s.pc + 2 ∧ OnlyDisplay [] s t ∧
      (summarize .cls s t).fbDirty = true

/-- R172: with wrapped coordinates a pixel is inverted exactly when a 1 bit of the sprite falls on it, VF is 1 exactly when a pixel
went off, and a fault draws nothing. Bit 7 of a row is its left end (the spec's own D20, R171). -/
def Obligations.DrwInvertsWrappedPixels : Prop :=
  ∀ (x y : Reg) (n : Nibble) (s : State), s.params.drwEdge = .wrap →
    decodeWord (formXyn 0xD#4 x y n) = .ok (.drw x y n) ∧
    (n.toNat = 0 ∨ s.i.toNat + n.toNat - 1 ≤ 4095 → ∃ t, exec (.drw x y n) s = .next t ∧
      (∀ px py, t.pixel px py ≠ s.pixel px py ↔
        ∃ r c : Nat, r < n.toNat ∧ c < 8 ∧ (s.byteAt (s.i.toNat + r)).getLsbD (7 - c) = true ∧
          px.val = ((s.reg x).toNat + c) % 64 ∧ py.val = ((s.reg y).toNat + r) % 32) ∧
      (t.reg 0xF = 1 ↔ ∃ px py, s.pixel px py = true ∧ t.pixel px py = false) ∧
      (t.reg 0xF = 0 ∨ t.reg 0xF = 1) ∧
      t.pc = s.pc + 2 ∧ OnlyDisplay [0xF] s t) ∧
    (1 ≤ n.toNat → 4095 < s.i.toNat + n.toNat - 1 →
      exec (.drw x y n) s = .fault .outOfBounds ∧ (nextInstr s = .ok (.drw x y n) → afterStep s = s))

/-- R173 (clip is the spec's own, D6): the corner is wrapped and pixels past the right or bottom edge are dropped; all rows are
still read, so the fault is that of R172. -/
def Obligations.DrwDropsClippedPixels : Prop :=
  ∀ (x y : Reg) (n : Nibble) (s : State), s.params.drwEdge = .clip →
    (n.toNat = 0 ∨ s.i.toNat + n.toNat - 1 ≤ 4095 → ∃ t, exec (.drw x y n) s = .next t ∧
      (∀ px py, t.pixel px py ≠ s.pixel px py ↔
        ∃ r c : Nat, r < n.toNat ∧ c < 8 ∧ (s.byteAt (s.i.toNat + r)).getLsbD (7 - c) = true ∧
          px.val = (s.reg x).toNat % 64 + c ∧ py.val = (s.reg y).toNat % 32 + r) ∧
      (t.reg 0xF = 1 ↔ ∃ px py, s.pixel px py = true ∧ t.pixel px py = false) ∧
      (t.reg 0xF = 0 ∨ t.reg 0xF = 1) ∧
      t.pc = s.pc + 2 ∧ OnlyDisplay [0xF] s t) ∧
    (1 ≤ n.toNat → 4095 < s.i.toNat + n.toNat - 1 →
      exec (.drw x y n) s = .fault .outOfBounds ∧ (nextInstr s = .ok (.drw x y n) → afterStep s = s))

/-- R174 (a), the source's property S6, in both modes: a second draw at the same coordinates gives the first picture back, and its
VF is 1 exactly when the first draw turned a pixel on. The premises on `x` and `y` say that the flag of the first draw did not
change the coordinates. -/
def Obligations.DrawingTwiceRestoresTheDisplay : Prop :=
  ∀ (x y : Reg) (n : Nibble) (s t : State), exec (.drw x y n) s = .next t → t.reg x = s.reg x → t.reg y = s.reg y →
    ∃ u, exec (.drw x y n) t = .next u ∧ KeepsDisplay s u ∧
      (u.reg 0xF = 1 ↔ ∃ px py, s.pixel px py = false ∧ t.pixel px py = true)

/-! ## Input and timers (spec/44_input_timers.md) -/

/-- R185, R186, and R188 for a value above 15 (InvalidKey there is the spec's own, D14). -/
def Obligations.KeySkipsTestTheLatch : Prop :=
  ∀ (x : Reg) (s : State),
    decodeWord (formXkk 0xE#4 x 0x9E#8) = .ok (.skp x) ∧
    decodeWord (formXkk 0xE#4 x 0xA1#8) = .ok (.sknp x) ∧
    (∀ k : Key, (s.reg x).toNat = k.val →
      (∃ t, exec (.skp x) s = .next t ∧ t.pc = (if s.key k = true then s.pc + 4 else s.pc + 2) ∧ OnlyRegs [] s t) ∧
      (∃ t, exec (.sknp x) s = .next t ∧ t.pc = (if s.key k = false then s.pc + 4 else s.pc + 2) ∧ OnlyRegs [] s t)) ∧
    (15 < (s.reg x).toNat → exec (.skp x) s = .fault .invalidKey ∧ exec (.sknp x) s = .fault .invalidKey)

/-- R189: with a key pressed the least pressed key is stored (the spec's own D15); with none nothing at all changes. -/
def Obligations.WaitForKeyStoresTheLeastKey : Prop :=
  ∀ (x : Reg) (s : State),
    decodeWord (formXkk 0xF#4 x 0x0A#8) = .ok (.ldVxK x) ∧
    (∀ k : Key, s.key k = true → (∀ j : Key, j < k → s.key j = false) →
      ∃ t, exec (.ldVxK x) s = .next t ∧ (t.reg x).toNat = k.val ∧ t.pc = s.pc + 2 ∧ OnlyRegs [x] s t) ∧
    ((∀ k : Key, s.key k = false) → exec (.ldVxK x) s = .next s)

/-- R187, R190, R191; with R224 for the level SOUND_ACTIVE. -/
def Obligations.TimerTransfers : Prop :=
  ∀ (x : Reg) (s : State),
    decodeWord (formXkk 0xF#4 x 0x07#8) = .ok (.ldVxDt x) ∧
    decodeWord (formXkk 0xF#4 x 0x15#8) = .ok (.ldDtVx x) ∧
    decodeWord (formXkk 0xF#4 x 0x18#8) = .ok (.ldStVx x) ∧
    (∃ t, exec (.ldVxDt x) s = .next t ∧ t.reg x = s.dt ∧ t.pc = s.pc + 2 ∧ OnlyRegs [x] s t) ∧
    (∃ t, exec (.ldDtVx x) s = .next t ∧ t.dt = s.reg x ∧ t.st = s.st ∧ t.pc = s.pc + 2 ∧ OnlyTimers s t) ∧
    (∃ t, exec (.ldStVx x) s = .next t ∧ t.st = s.reg x ∧ t.dt = s.dt ∧ t.pc = s.pc + 2 ∧ OnlyTimers s t ∧
      (t.soundActive = true ↔ 0 < (s.reg x).toNat))

/-! ## Events of the host (spec/60_exceptions.md, spec/70_reset_and_hazards.md) -/

/-- R6, in the form the model gives it (log entry 5): the event the host lists first happens, whole, and is then off the list; a
TICK always has a next state. -/
def Obligations.ListedEventsHappenInOrder : Prop :=
  ∀ (s : State) (e : Event) (rest : List Event), s.hostEvents = e :: rest →
    step s = deliver e (s.setHostEvents rest) ∧
    (e = .tick → ∃ t, step s = .next t ∧ t.hostEvents = rest ∧ t.dt.toNat = s.dt.toNat - 1 ∧ t.pc = s.pc)

/-- R216: each timer on its own condition, never below 0, and nothing else. -/
def Obligations.TickCountsBothTimersDown : Prop :=
  ∀ s : State, ∃ t, deliver .tick s = .next t ∧
    (0 < s.dt.toNat → t.dt.toNat = s.dt.toNat - 1) ∧ (s.dt.toNat = 0 → t.dt.toNat = 0) ∧
    (0 < s.st.toNat → t.st.toNat = s.st.toNat - 1) ∧ (s.st.toNat = 0 → t.st.toNat = 0) ∧
    t.pc = s.pc ∧ OnlyTimers s t

/-- R219: `k` TICKs take a timer from t to max(t - k, 0). -/
def Obligations.TicksSubtractDownToZero : Prop :=
  ∀ (k : Nat) (s : State),
    (afterEvents (List.replicate k .tick) s).dt.toNat = max ((s.dt.toNat : Int) - k) 0 ∧
    (afterEvents (List.replicate k .tick) s).st.toNat = max ((s.st.toNat : Int) - k) 0

/-- R221: one bit, and nothing else; an index above 15 writes no bit; no other event writes the latch. -/
def Obligations.SetKeyWritesOneBit : Prop :=
  ∀ (n : Nat) (p : Bool) (s : State),
    (∀ k : Key, n = k.val → ∃ t, deliver (.setKey n p) s = .next t ∧ t.key k = p ∧
      (∀ j, j ≠ k → t.key j = s.key j) ∧ t.pc = s.pc ∧ KeepsRegsBut [] s t ∧ t.i = s.i ∧ KeepsMemory s t ∧ KeepsDisplay s t ∧
      KeepsStack s t ∧ KeepsTimers s t ∧ KeepsSetting s t ∧ t.draws = s.draws) ∧
    (15 < n → deliver (.setKey n p) s = .fault .invalidKey ∧ afterEvent (.setKey n p) s = s) ∧
    ∀ (e : Event) (t : State), (∀ m q, e ≠ .setKey m q) → deliver e s = .next t → KeepsKeys s t

/-- R244: the bytes land in order and nothing else changes; past 4096 no byte is written (R232). That an offset below 0x200 is
accepted is the spec's own decision D23. -/
def Obligations.LoadCopiesTheProgram : Prop :=
  ∀ (bytes : List Byte) (offset : Nat) (s : State),
    (offset + bytes.length ≤ 4096 → ∃ t, deliver (.load bytes offset) s = .next t ∧
      (∀ j, ∀ h : j < bytes.length, t.byteAt (offset + j) = bytes[j]) ∧ KeepsMemoryOutside offset bytes.length s t ∧
      t.i = s.i ∧ t.pc = s.pc ∧ OnlyMemoryAndIndex s t) ∧
    (4096 < offset + bytes.length →
      deliver (.load bytes offset) s = .fault .outOfBounds ∧ afterEvent (.load bytes offset) s = s)

/-- R240: registers, memory and timers as R38 says, KEY unchanged (FB, the slots and KEY: the spec's own D17); the parameters and what
the host issues next stay (R39; log entries 1, 3 and 5). -/
def Obligations.ResetEventRestoresTheMachine : Prop :=
  ∀ s : State, ∃ t, deliver .reset s = .next t ∧
    (∀ r, t.reg r = 0) ∧ t.i = 0 ∧ t.pc = 0x0200#16 ∧ t.sp = 0 ∧ (∀ j, t.slot j = 0) ∧ t.dt = 0 ∧ t.st = 0 ∧
    (∀ j : Fin 80, t.byteAt (s.params.fontBase.val + j.val) = s.params.fontData.get j) ∧
    (∀ a, a < s.params.fontBase.val ∨ s.params.fontBase.val + 80 ≤ a → t.byteAt a = 0) ∧
    (∀ x y, t.pixel x y = false) ∧ KeepsKeys s t ∧ KeepsSetting s t

/-- R38, R36, R5: the state at power-on of a core with any parameters, the defaults of R5, and the font at its default base byte by byte
(bytes, base and FX29_OOR: the spec's own D12, D13; FB, slots and keys: D17). State.reset is the core with R5's defaults.
The first step is a STEP because no event is listed (log entry 5). -/
def Obligations.PowerOnState : Prop :=
  (∀ p : Params,
    (∀ r, (State.powerOn p).reg r = 0) ∧ (State.powerOn p).i = 0 ∧ (State.powerOn p).pc = 0x0200#16 ∧ (State.powerOn p).sp = 0 ∧
    (∀ j, (State.powerOn p).slot j = 0) ∧ (State.powerOn p).dt = 0 ∧ (State.powerOn p).st = 0 ∧
    (State.powerOn p).soundActive = false ∧ (∀ x y, (State.powerOn p).pixel x y = false) ∧ (∀ k, (State.powerOn p).key k = false) ∧
    (∀ j : Fin 80, (State.powerOn p).byteAt (p.fontBase.val + j.val) = p.fontData.get j) ∧
    (∀ a, a < p.fontBase.val ∨ p.fontBase.val + 80 ≤ a → (State.powerOn p).byteAt a = 0) ∧
    (State.powerOn p).params = p ∧ step (State.powerOn p) = .fault (.unknownInstruction 0x0000#16)) ∧
  (defaultParams.drwEdge = .wrap ∧ defaultParams.fx1eVf = .off ∧ defaultParams.shiftSrc = .vx ∧ defaultParams.ldstI = .unchanged ∧
    defaultParams.fx29Oor = .refuse ∧ defaultParams.fontBase.val = 0) ∧
  (State.reset = State.powerOn defaultParams) ∧
  ((List.range 40).map State.reset.byteAt =
    [0xF0, 0x90, 0x90, 0x90, 0xF0] ++ [0x20, 0x60, 0x20, 0x20, 0x70] ++ [0xF0, 0x10, 0xF0, 0x80, 0xF0] ++
    [0xF0, 0x10, 0xF0, 0x10, 0xF0] ++ [0x90, 0x90, 0xF0, 0x10, 0x10] ++ [0xF0, 0x80, 0xF0, 0x10, 0xF0] ++
    [0xF0, 0x80, 0xF0, 0x90, 0xF0] ++ [0xF0, 0x10, 0x20, 0x40, 0x40]) ∧
  ((List.range 40).map (fun j => State.reset.byteAt (40 + j)) =
    [0xF0, 0x90, 0xF0, 0x90, 0xF0] ++ [0xF0, 0x90, 0xF0, 0x10, 0xF0] ++ [0xF0, 0x90, 0xF0, 0x90, 0x90] ++
    [0xE0, 0x90, 0xE0, 0x90, 0xE0] ++ [0xF0, 0x80, 0x80, 0x80, 0xF0] ++ [0xE0, 0x90, 0x90, 0x90, 0xE0] ++
    [0xF0, 0x80, 0xF0, 0x80, 0xF0] ++ [0xF0, 0x80, 0xF0, 0x80, 0x80])

/-- R230 (the three booleans are the spec's own, D19): the summary of a STEP. -/
def Obligations.SummaryOfAStep : Prop :=
  ∀ (s t : State) (i : Instr), nextInstr s = .ok i → exec i s = .next t →
    ∃ m, stepResult s = .ok m ∧
      (m.fbDirty = true ↔ i = .cls ∨ ∃ x y n, i = .drw x y n) ∧
      (m.soundActive = true ↔ 0 < t.st.toNat) ∧
      (m.awaitingKey = true ↔ (∃ x, i = .ldVxK x) ∧ ∀ k, s.key k = false)

/-- R214: a faulting STEP returns the same fault after any number of TICKs, key events and further STEPs. It rests on what a fault
depends on: PC, SP, I, V0 to VF and memory, not the timers, the keys, the display, the slots or the parameters. (That the
faulting STEPs among the events change nothing is R213, by the spec's own D1.) -/
def Obligations.FaultComesAgainAfterTicksAndKeys : Prop :=
  (∀ (s t : State) (f : Fault), t.pc = s.pc → t.sp = s.sp → t.i = s.i → KeepsRegsBut [] s t → KeepsMemory s t →
    stepResult s = .err f → stepResult t = .err f) ∧
  ∀ (s : State) (f : Fault) (es : List Event), (∀ e ∈ es, e = .tick ∨ e = .step ∨ ∃ k p, e = .setKey k p) →
    stepResult s = .err f → stepResult (afterEvents es s) = .err f

/-! ## Rules about the whole machine -/

/-- R27, R25, R32: a step, whatever event it is, keeps at most 16 stack entries, PC at most 0x10FE, return addresses at most 0x1000 and
memory in its canonical form. -/
def Obligations.StepKeepsTheInvariant : Prop :=
  ∀ s t : State, s.Inv → step s = .next t → t.Inv

/-- R38: the state at power-on has the invariant, whatever parameters the core is built with. -/
def Obligations.ResetHasTheInvariant : Prop := State.reset.Inv ∧ ∀ p : Params, (State.powerOn p).Inv

/-- R24: what every instruction that completes leaves in PC (the sum of JP V0 is not masked, the spec's own D2). -/
def Obligations.PcAfterEveryInstruction : Prop :=
  ∀ (i : Instr) (s t : State), exec i s = .next t →
    t.pc = match i with
      | .jp nnn => BitVec.ofNat 16 nnn.toNat
      | .call nnn => BitVec.ofNat 16 nnn.toNat
      | .jpV0 nnn => BitVec.ofNat 16 (nnn.toNat + (s.reg 0).toNat)
      | .ret => s.stack.toList.getD (s.sp.toNat - 1) 0
      | .seByte x kk => if s.reg x = kk then s.pc + 4 else s.pc + 2
      | .sneByte x kk => if s.reg x = kk then s.pc + 2 else s.pc + 4
      | .seReg x y => if s.reg x = s.reg y then s.pc + 4 else s.pc + 2
      | .sneReg x y => if s.reg x = s.reg y then s.pc + 2 else s.pc + 4
      | .skp x => if s.keys.toList.getD (s.reg x).toNat false then s.pc + 4 else s.pc + 2
      | .sknp x => if s.keys.toList.getD (s.reg x).toNat false then s.pc + 2 else s.pc + 4
      | .ldVxK _ => if s.keys.toList.any id then s.pc + 2 else s.pc
      | _ => s.pc + 2

/-- R207: which instruction raises which fault, and when; so no instruction raises InvalidRegister or UnknownInstruction.
InvalidKey for SKP and SKNP is the spec's own decision D14 (R205, log entry 11). The premise rules out states no run reaches (StepKeepsTheInvariant). -/
def Obligations.FaultsOfEveryInstruction : Prop :=
  ∀ (i : Instr) (s : State) (f : Fault), s.sp.toNat ≤ 16 →
    (exec i s = .fault f ↔
      (i = .ret ∧ s.sp.toNat = 0 ∧ f = .stackUnderflow) ∨
      (∃ nnn, i = .call nnn ∧ s.sp.toNat = 16 ∧ f = .stackOverflow) ∨
      (∃ x y n, i = .drw x y n ∧ 1 ≤ n.toNat ∧ 0xFFF < s.i.toNat + n.toNat - 1 ∧ f = .outOfBounds) ∨
      (∃ x, i = .ldB x ∧ 0xFFF < s.i.toNat + 2 ∧ f = .outOfBounds) ∨
      (∃ x, (i = .storeRegs x ∨ i = .loadRegs x) ∧ 0xFFF < s.i.toNat + x.val ∧ f = .outOfBounds) ∨
      (∃ x, (i = .skp x ∨ i = .sknp x) ∧ 15 < (s.reg x).toNat ∧ f = .invalidKey))

/-- R206: the register file's own interface raises InvalidRegister exactly outside 0 to 15, and no step raises it. -/
def Obligations.InvalidRegisterIsNoStepsFault : Prop :=
  (∀ (s : State) (n : Nat), regFileGet s n = .error .invalidRegister ↔ 15 < n) ∧
  (∀ (s : State) (r : Reg), regFileGet s r.val = .ok (s.reg r)) ∧
  ∀ s : State, step s ≠ .fault .invalidRegister

/-- R154, R200: from a state that has the invariant a step is refused exactly where it is a STEP, the core is built with
FX29_OOR = refuse (the spec's own D13), and the instruction is LD F with Vx above 0xF; so no other operand and no other instruction
ends a run without one of the spec's faults. The invariant rules out the refusal of log entry 8, which no run meets. -/
def Obligations.RefusedExactlyAtANonDigit : Prop :=
  ∀ (s : State) (r : Refusal), s.Inv →
    (step s = .refused r ↔
      (s.hostEvents = [] ∨ ∃ rest, s.hostEvents = .step :: rest) ∧ s.params.fx29Oor = .refuse ∧ r = .fontDigitOutOfRange ∧
        ∃ x, nextInstr s = .ok (.ldF x) ∧ 0xF < (s.reg x).toNat)

/-- R34: of all instructions only CLS and DRW write the framebuffer. -/
def Obligations.OnlyClsAndDrwWriteTheDisplay : Prop :=
  ∀ (i : Instr) (s t : State), exec i s = .next t → i ≠ .cls → (∀ x y n, i ≠ .drw x y n) → KeepsDisplay s t

/-- R56: of all instructions only LD B and LD [I],Vx write memory. -/
def Obligations.OnlyBcdAndStoreWriteMemory : Prop :=
  ∀ (i : Instr) (s t : State), exec i s = .next t → (∀ x, i ≠ .ldB x ∧ i ≠ .storeRegs x) → KeepsMemory s t

/-- R35, R31: no instruction writes the input latch or the parameters, nor what the host issues next. -/
def Obligations.NoInstructionWritesKeysOrParameters : Prop :=
  ∀ (i : Instr) (s t : State), exec i s = .next t → KeepsKeys s t ∧ KeepsSetting s t

/-- R26, R27, R28, R29, R30: which instructions write I, the stack and the timers. -/
def Obligations.WritersOfIndexStackAndTimers : Prop :=
  ∀ (i : Instr) (s t : State), exec i s = .next t →
    (t.i ≠ s.i → (∃ nnn, i = .ldI nnn) ∨ (∃ x, i = .addI x) ∨ (∃ x, i = .ldF x) ∨
      (s.params.ldstI = .addXPlus1 ∧ ∃ x, i = .storeRegs x ∨ i = .loadRegs x)) ∧
    (¬KeepsStack s t → i = .ret ∨ ∃ nnn, i = .call nnn) ∧
    (t.dt ≠ s.dt → ∃ x, i = .ldDtVx x) ∧
    (t.st ≠ s.st → ∃ x, i = .ldStVx x)
end

