-- ==== Sys2Proof/Laws/Decode.lean ====
section
/-! SUPPORT. The fields of the encoded forms, and an opcode put together from its fields. -/

namespace Sys2Proof

@[simp] theorem regOfNibble_nibbleOfReg (r : Reg) : regOfNibble (nibbleOfReg r) = r := by revert r; decide

@[simp] theorem nibbleOfReg_regOfNibble (b : Nibble) : nibbleOfReg (regOfNibble b) = b := by revert b; decide

/-- Concatenation, as a number. -/
theorem toNat_concat {m n : Nat} (a : BitVec m) (b : BitVec n) : (a ++ b).toNat = a.toNat * 2 ^ n + b.toNat := by
  rw [BitVec.toNat_append, ← Nat.shiftLeft_add_eq_or_of_lt b.isLt, Nat.shiftLeft_eq]

/-- A word as its two bytes. -/
theorem toNat_wordOfBytes (hi lo : Byte) : (wordOfBytes hi lo).toNat = hi.toNat * 256 + lo.toNat :=
  toNat_concat hi lo

@[simp] theorem wordOfBytes_high_low (w : Word) : wordOfBytes (highByte w) (lowByte w) = w := by
  apply BitVec.eq_of_toNat_eq
  rw [toNat_wordOfBytes]
  have := w.isLt
  simp [highByte, lowByte, BitVec.extractLsb'_toNat, Nat.shiftRight_eq_div_pow]
  omega

@[simp] theorem highByte_wordOfBytes (hi lo : Byte) : highByte (wordOfBytes hi lo) = hi := by
  apply BitVec.eq_of_toNat_eq
  have := hi.isLt
  have := lo.isLt
  simp [highByte, BitVec.extractLsb'_toNat, Nat.shiftRight_eq_div_pow, toNat_wordOfBytes]
  omega

@[simp] theorem lowByte_wordOfBytes (hi lo : Byte) : lowByte (wordOfBytes hi lo) = lo := by
  apply BitVec.eq_of_toNat_eq
  have := hi.isLt
  have := lo.isLt
  simp [lowByte, BitVec.extractLsb'_toNat, toNat_wordOfBytes]
  omega

/-! ## The forms as numbers -/

theorem toNat_formNnn (f : Nibble) (a : Addr) : (formNnn f a).toNat = f.toNat * 4096 + a.toNat :=
  toNat_concat f a

theorem toNat_nibbleOfReg (r : Reg) : (nibbleOfReg r).toNat = r.val := by revert r; decide

theorem toNat_formXkk (f : Nibble) (x : Reg) (kk : Byte) : (formXkk f x kk).toNat = f.toNat * 4096 + x.val * 256 + kk.toNat := by
  have h1 : (formXkk f x kk).toNat = (f ++ nibbleOfReg x).toNat * 2 ^ 8 + kk.toNat := toNat_concat _ _
  rw [h1, toNat_concat, toNat_nibbleOfReg]
  omega

theorem toNat_formXyn (f : Nibble) (x y : Reg) (n : Nibble) :
    (formXyn f x y n).toNat = f.toNat * 4096 + x.val * 256 + y.val * 16 + n.toNat := by
  have h1 : (formXyn f x y n).toNat = (f ++ nibbleOfReg x ++ nibbleOfReg y).toNat * 2 ^ 4 + n.toNat := toNat_concat _ _
  rw [h1, toNat_concat, toNat_concat, toNat_nibbleOfReg, toNat_nibbleOfReg]
  omega

/-! ## The fields as numbers -/

theorem toNat_nibble3 (w : Word) : (nibble3 w).toNat = w.toNat / 4096 := by
  have := w.isLt
  simp [nibble3, BitVec.extractLsb'_toNat, Nat.shiftRight_eq_div_pow]
  omega

theorem val_fieldX (w : Word) : (fieldX w).val = w.toNat / 256 % 16 := by
  simp [fieldX, regOfNibble, nibble2, BitVec.extractLsb'_toNat, Nat.shiftRight_eq_div_pow]

theorem val_fieldY (w : Word) : (fieldY w).val = w.toNat / 16 % 16 := by
  simp [fieldY, regOfNibble, nibble1, BitVec.extractLsb'_toNat, Nat.shiftRight_eq_div_pow]

theorem toNat_nibble0 (w : Word) : (nibble0 w).toNat = w.toNat % 16 := by
  simp [nibble0, BitVec.extractLsb'_toNat]

theorem toNat_fieldKk (w : Word) : (fieldKk w).toNat = w.toNat % 256 := by
  simp [fieldKk, BitVec.extractLsb'_toNat]

theorem toNat_fieldNnn (w : Word) : (fieldNnn w).toNat = w.toNat % 4096 := by
  simp [fieldNnn, BitVec.extractLsb'_toNat]

/-! ## The fields of the forms -/

@[simp] theorem nibble3_formNnn (f : Nibble) (a : Addr) : nibble3 (formNnn f a) = f := by
  apply BitVec.eq_of_toNat_eq
  rw [toNat_nibble3, toNat_formNnn]; omega

@[simp] theorem fieldNnn_formNnn (f : Nibble) (a : Addr) : fieldNnn (formNnn f a) = a := by
  apply BitVec.eq_of_toNat_eq
  rw [toNat_fieldNnn, toNat_formNnn]; omega

@[simp] theorem nibble3_formXkk (f : Nibble) (x : Reg) (kk : Byte) : nibble3 (formXkk f x kk) = f := by
  apply BitVec.eq_of_toNat_eq
  rw [toNat_nibble3, toNat_formXkk]; omega

@[simp] theorem fieldX_formXkk (f : Nibble) (x : Reg) (kk : Byte) : fieldX (formXkk f x kk) = x := by
  apply Fin.ext
  rw [val_fieldX, toNat_formXkk]; omega

@[simp] theorem fieldKk_formXkk (f : Nibble) (x : Reg) (kk : Byte) : fieldKk (formXkk f x kk) = kk := by
  apply BitVec.eq_of_toNat_eq
  rw [toNat_fieldKk, toNat_formXkk]; omega

@[simp] theorem nibble3_formXyn (f : Nibble) (x y : Reg) (n : Nibble) : nibble3 (formXyn f x y n) = f := by
  apply BitVec.eq_of_toNat_eq
  rw [toNat_nibble3, toNat_formXyn]; omega

@[simp] theorem fieldX_formXyn (f : Nibble) (x y : Reg) (n : Nibble) : fieldX (formXyn f x y n) = x := by
  apply Fin.ext
  rw [val_fieldX, toNat_formXyn]; omega

@[simp] theorem fieldY_formXyn (f : Nibble) (x y : Reg) (n : Nibble) : fieldY (formXyn f x y n) = y := by
  apply Fin.ext
  rw [val_fieldY, toNat_formXyn]; omega

@[simp] theorem nibble0_formXyn (f : Nibble) (x y : Reg) (n : Nibble) : nibble0 (formXyn f x y n) = n := by
  apply BitVec.eq_of_toNat_eq
  rw [toNat_nibble0, toNat_formXyn]; omega

/-! ## A word put together from its fields -/

theorem formNnn_fields (w : Word) : formNnn (nibble3 w) (fieldNnn w) = w := by
  apply BitVec.eq_of_toNat_eq
  rw [toNat_formNnn, toNat_nibble3, toNat_fieldNnn]; omega

theorem formXkk_fields (w : Word) : formXkk (nibble3 w) (fieldX w) (fieldKk w) = w := by
  apply BitVec.eq_of_toNat_eq
  rw [toNat_formXkk, toNat_nibble3, val_fieldX, toNat_fieldKk]; omega

theorem formXyn_fields (w : Word) : formXyn (nibble3 w) (fieldX w) (fieldY w) (nibble0 w) = w := by
  apply BitVec.eq_of_toNat_eq
  rw [toNat_formXyn, toNat_nibble3, val_fieldX, val_fieldY, toNat_nibble0]; omega

end Sys2Proof
end

