-- ==== Sys2Proof/Laws/State.lean ====
section
/-! SUPPORT. What each update of the state does to each field and to each accessor: one lemma each, so that no later proof unfolds
a record update. -/

namespace Sys2Proof.Machine.State

/-! ## setReg -/

@[simp] theorem setReg_v (s : State) (r : Reg) (b : Byte) : (s.setReg r b).v = s.v.set r.val b r.isLt := rfl
@[simp] theorem setReg_i (s : State) (r : Reg) (b : Byte) : (s.setReg r b).i = s.i := rfl
@[simp] theorem setReg_pc (s : State) (r : Reg) (b : Byte) : (s.setReg r b).pc = s.pc := rfl
@[simp] theorem setReg_sp (s : State) (r : Reg) (b : Byte) : (s.setReg r b).sp = s.sp := rfl
@[simp] theorem setReg_stack (s : State) (r : Reg) (b : Byte) : (s.setReg r b).stack = s.stack := rfl
@[simp] theorem setReg_dt (s : State) (r : Reg) (b : Byte) : (s.setReg r b).dt = s.dt := rfl
@[simp] theorem setReg_st (s : State) (r : Reg) (b : Byte) : (s.setReg r b).st = s.st := rfl
@[simp] theorem setReg_mem (s : State) (r : Reg) (b : Byte) : (s.setReg r b).mem = s.mem := rfl
@[simp] theorem setReg_fb (s : State) (r : Reg) (b : Byte) : (s.setReg r b).fb = s.fb := rfl
@[simp] theorem setReg_keys (s : State) (r : Reg) (b : Byte) : (s.setReg r b).keys = s.keys := rfl
@[simp] theorem setReg_draws (s : State) (r : Reg) (b : Byte) : (s.setReg r b).draws = s.draws := rfl
@[simp] theorem setReg_params (s : State) (r : Reg) (b : Byte) : (s.setReg r b).params = s.params := rfl
@[simp] theorem setReg_hostEvents (s : State) (r : Reg) (b : Byte) : (s.setReg r b).hostEvents = s.hostEvents := rfl
@[simp] theorem setReg_slot (s : State) (r : Reg) (b : Byte) (q : Fin 16) : (s.setReg r b).slot q = s.slot q := rfl
@[simp] theorem setReg_byteAt (s : State) (r : Reg) (b : Byte) (q : Nat) : (s.setReg r b).byteAt q = s.byteAt q := rfl
@[simp] theorem setReg_pixel (s : State) (r : Reg) (b : Byte) (qx : Fin 64) (qy : Fin 32) : (s.setReg r b).pixel qx qy = s.pixel qx qy := rfl
@[simp] theorem setReg_key (s : State) (r : Reg) (b : Byte) (q : Key) : (s.setReg r b).key q = s.key q := rfl

/-! ## setI -/

@[simp] theorem setI_v (s : State) (w : Word) : (s.setI w).v = s.v := rfl
@[simp] theorem setI_i (s : State) (w : Word) : (s.setI w).i = w := rfl
@[simp] theorem setI_pc (s : State) (w : Word) : (s.setI w).pc = s.pc := rfl
@[simp] theorem setI_sp (s : State) (w : Word) : (s.setI w).sp = s.sp := rfl
@[simp] theorem setI_stack (s : State) (w : Word) : (s.setI w).stack = s.stack := rfl
@[simp] theorem setI_dt (s : State) (w : Word) : (s.setI w).dt = s.dt := rfl
@[simp] theorem setI_st (s : State) (w : Word) : (s.setI w).st = s.st := rfl
@[simp] theorem setI_mem (s : State) (w : Word) : (s.setI w).mem = s.mem := rfl
@[simp] theorem setI_fb (s : State) (w : Word) : (s.setI w).fb = s.fb := rfl
@[simp] theorem setI_keys (s : State) (w : Word) : (s.setI w).keys = s.keys := rfl
@[simp] theorem setI_draws (s : State) (w : Word) : (s.setI w).draws = s.draws := rfl
@[simp] theorem setI_params (s : State) (w : Word) : (s.setI w).params = s.params := rfl
@[simp] theorem setI_hostEvents (s : State) (w : Word) : (s.setI w).hostEvents = s.hostEvents := rfl
@[simp] theorem setI_reg (s : State) (w : Word) (q : Reg) : (s.setI w).reg q = s.reg q := rfl
@[simp] theorem setI_slot (s : State) (w : Word) (q : Fin 16) : (s.setI w).slot q = s.slot q := rfl
@[simp] theorem setI_byteAt (s : State) (w : Word) (q : Nat) : (s.setI w).byteAt q = s.byteAt q := rfl
@[simp] theorem setI_pixel (s : State) (w : Word) (qx : Fin 64) (qy : Fin 32) : (s.setI w).pixel qx qy = s.pixel qx qy := rfl
@[simp] theorem setI_key (s : State) (w : Word) (q : Key) : (s.setI w).key q = s.key q := rfl

/-! ## setPc -/

@[simp] theorem setPc_v (s : State) (w : Word) : (s.setPc w).v = s.v := rfl
@[simp] theorem setPc_i (s : State) (w : Word) : (s.setPc w).i = s.i := rfl
@[simp] theorem setPc_pc (s : State) (w : Word) : (s.setPc w).pc = w := rfl
@[simp] theorem setPc_sp (s : State) (w : Word) : (s.setPc w).sp = s.sp := rfl
@[simp] theorem setPc_stack (s : State) (w : Word) : (s.setPc w).stack = s.stack := rfl
@[simp] theorem setPc_dt (s : State) (w : Word) : (s.setPc w).dt = s.dt := rfl
@[simp] theorem setPc_st (s : State) (w : Word) : (s.setPc w).st = s.st := rfl
@[simp] theorem setPc_mem (s : State) (w : Word) : (s.setPc w).mem = s.mem := rfl
@[simp] theorem setPc_fb (s : State) (w : Word) : (s.setPc w).fb = s.fb := rfl
@[simp] theorem setPc_keys (s : State) (w : Word) : (s.setPc w).keys = s.keys := rfl
@[simp] theorem setPc_draws (s : State) (w : Word) : (s.setPc w).draws = s.draws := rfl
@[simp] theorem setPc_params (s : State) (w : Word) : (s.setPc w).params = s.params := rfl
@[simp] theorem setPc_hostEvents (s : State) (w : Word) : (s.setPc w).hostEvents = s.hostEvents := rfl
@[simp] theorem setPc_reg (s : State) (w : Word) (q : Reg) : (s.setPc w).reg q = s.reg q := rfl
@[simp] theorem setPc_slot (s : State) (w : Word) (q : Fin 16) : (s.setPc w).slot q = s.slot q := rfl
@[simp] theorem setPc_byteAt (s : State) (w : Word) (q : Nat) : (s.setPc w).byteAt q = s.byteAt q := rfl
@[simp] theorem setPc_pixel (s : State) (w : Word) (qx : Fin 64) (qy : Fin 32) : (s.setPc w).pixel qx qy = s.pixel qx qy := rfl
@[simp] theorem setPc_key (s : State) (w : Word) (q : Key) : (s.setPc w).key q = s.key q := rfl

/-! ## setSp -/

@[simp] theorem setSp_v (s : State) (b : Byte) : (s.setSp b).v = s.v := rfl
@[simp] theorem setSp_i (s : State) (b : Byte) : (s.setSp b).i = s.i := rfl
@[simp] theorem setSp_pc (s : State) (b : Byte) : (s.setSp b).pc = s.pc := rfl
@[simp] theorem setSp_sp (s : State) (b : Byte) : (s.setSp b).sp = b := rfl
@[simp] theorem setSp_stack (s : State) (b : Byte) : (s.setSp b).stack = s.stack := rfl
@[simp] theorem setSp_dt (s : State) (b : Byte) : (s.setSp b).dt = s.dt := rfl
@[simp] theorem setSp_st (s : State) (b : Byte) : (s.setSp b).st = s.st := rfl
@[simp] theorem setSp_mem (s : State) (b : Byte) : (s.setSp b).mem = s.mem := rfl
@[simp] theorem setSp_fb (s : State) (b : Byte) : (s.setSp b).fb = s.fb := rfl
@[simp] theorem setSp_keys (s : State) (b : Byte) : (s.setSp b).keys = s.keys := rfl
@[simp] theorem setSp_draws (s : State) (b : Byte) : (s.setSp b).draws = s.draws := rfl
@[simp] theorem setSp_params (s : State) (b : Byte) : (s.setSp b).params = s.params := rfl
@[simp] theorem setSp_hostEvents (s : State) (b : Byte) : (s.setSp b).hostEvents = s.hostEvents := rfl
@[simp] theorem setSp_reg (s : State) (b : Byte) (q : Reg) : (s.setSp b).reg q = s.reg q := rfl
@[simp] theorem setSp_slot (s : State) (b : Byte) (q : Fin 16) : (s.setSp b).slot q = s.slot q := rfl
@[simp] theorem setSp_byteAt (s : State) (b : Byte) (q : Nat) : (s.setSp b).byteAt q = s.byteAt q := rfl
@[simp] theorem setSp_pixel (s : State) (b : Byte) (qx : Fin 64) (qy : Fin 32) : (s.setSp b).pixel qx qy = s.pixel qx qy := rfl
@[simp] theorem setSp_key (s : State) (b : Byte) (q : Key) : (s.setSp b).key q = s.key q := rfl

/-! ## setSlot -/

@[simp] theorem setSlot_v (s : State) (j : Fin 16) (w : Word) : (s.setSlot j w).v = s.v := rfl
@[simp] theorem setSlot_i (s : State) (j : Fin 16) (w : Word) : (s.setSlot j w).i = s.i := rfl
@[simp] theorem setSlot_pc (s : State) (j : Fin 16) (w : Word) : (s.setSlot j w).pc = s.pc := rfl
@[simp] theorem setSlot_sp (s : State) (j : Fin 16) (w : Word) : (s.setSlot j w).sp = s.sp := rfl
@[simp] theorem setSlot_stack (s : State) (j : Fin 16) (w : Word) : (s.setSlot j w).stack = s.stack.set j.val w j.isLt := rfl
@[simp] theorem setSlot_dt (s : State) (j : Fin 16) (w : Word) : (s.setSlot j w).dt = s.dt := rfl
@[simp] theorem setSlot_st (s : State) (j : Fin 16) (w : Word) : (s.setSlot j w).st = s.st := rfl
@[simp] theorem setSlot_mem (s : State) (j : Fin 16) (w : Word) : (s.setSlot j w).mem = s.mem := rfl
@[simp] theorem setSlot_fb (s : State) (j : Fin 16) (w : Word) : (s.setSlot j w).fb = s.fb := rfl
@[simp] theorem setSlot_keys (s : State) (j : Fin 16) (w : Word) : (s.setSlot j w).keys = s.keys := rfl
@[simp] theorem setSlot_draws (s : State) (j : Fin 16) (w : Word) : (s.setSlot j w).draws = s.draws := rfl
@[simp] theorem setSlot_params (s : State) (j : Fin 16) (w : Word) : (s.setSlot j w).params = s.params := rfl
@[simp] theorem setSlot_hostEvents (s : State) (j : Fin 16) (w : Word) : (s.setSlot j w).hostEvents = s.hostEvents := rfl
@[simp] theorem setSlot_reg (s : State) (j : Fin 16) (w : Word) (q : Reg) : (s.setSlot j w).reg q = s.reg q := rfl
@[simp] theorem setSlot_byteAt (s : State) (j : Fin 16) (w : Word) (q : Nat) : (s.setSlot j w).byteAt q = s.byteAt q := rfl
@[simp] theorem setSlot_pixel (s : State) (j : Fin 16) (w : Word) (qx : Fin 64) (qy : Fin 32) : (s.setSlot j w).pixel qx qy = s.pixel qx qy := rfl
@[simp] theorem setSlot_key (s : State) (j : Fin 16) (w : Word) (q : Key) : (s.setSlot j w).key q = s.key q := rfl

/-! ## setDt -/

@[simp] theorem setDt_v (s : State) (b : Byte) : (s.setDt b).v = s.v := rfl
@[simp] theorem setDt_i (s : State) (b : Byte) : (s.setDt b).i = s.i := rfl
@[simp] theorem setDt_pc (s : State) (b : Byte) : (s.setDt b).pc = s.pc := rfl
@[simp] theorem setDt_sp (s : State) (b : Byte) : (s.setDt b).sp = s.sp := rfl
@[simp] theorem setDt_stack (s : State) (b : Byte) : (s.setDt b).stack = s.stack := rfl
@[simp] theorem setDt_dt (s : State) (b : Byte) : (s.setDt b).dt = b := rfl
@[simp] theorem setDt_st (s : State) (b : Byte) : (s.setDt b).st = s.st := rfl
@[simp] theorem setDt_mem (s : State) (b : Byte) : (s.setDt b).mem = s.mem := rfl
@[simp] theorem setDt_fb (s : State) (b : Byte) : (s.setDt b).fb = s.fb := rfl
@[simp] theorem setDt_keys (s : State) (b : Byte) : (s.setDt b).keys = s.keys := rfl
@[simp] theorem setDt_draws (s : State) (b : Byte) : (s.setDt b).draws = s.draws := rfl
@[simp] theorem setDt_params (s : State) (b : Byte) : (s.setDt b).params = s.params := rfl
@[simp] theorem setDt_hostEvents (s : State) (b : Byte) : (s.setDt b).hostEvents = s.hostEvents := rfl
@[simp] theorem setDt_reg (s : State) (b : Byte) (q : Reg) : (s.setDt b).reg q = s.reg q := rfl
@[simp] theorem setDt_slot (s : State) (b : Byte) (q : Fin 16) : (s.setDt b).slot q = s.slot q := rfl
@[simp] theorem setDt_byteAt (s : State) (b : Byte) (q : Nat) : (s.setDt b).byteAt q = s.byteAt q := rfl
@[simp] theorem setDt_pixel (s : State) (b : Byte) (qx : Fin 64) (qy : Fin 32) : (s.setDt b).pixel qx qy = s.pixel qx qy := rfl
@[simp] theorem setDt_key (s : State) (b : Byte) (q : Key) : (s.setDt b).key q = s.key q := rfl

/-! ## setSt -/

@[simp] theorem setSt_v (s : State) (b : Byte) : (s.setSt b).v = s.v := rfl
@[simp] theorem setSt_i (s : State) (b : Byte) : (s.setSt b).i = s.i := rfl
@[simp] theorem setSt_pc (s : State) (b : Byte) : (s.setSt b).pc = s.pc := rfl
@[simp] theorem setSt_sp (s : State) (b : Byte) : (s.setSt b).sp = s.sp := rfl
@[simp] theorem setSt_stack (s : State) (b : Byte) : (s.setSt b).stack = s.stack := rfl
@[simp] theorem setSt_dt (s : State) (b : Byte) : (s.setSt b).dt = s.dt := rfl
@[simp] theorem setSt_st (s : State) (b : Byte) : (s.setSt b).st = b := rfl
@[simp] theorem setSt_mem (s : State) (b : Byte) : (s.setSt b).mem = s.mem := rfl
@[simp] theorem setSt_fb (s : State) (b : Byte) : (s.setSt b).fb = s.fb := rfl
@[simp] theorem setSt_keys (s : State) (b : Byte) : (s.setSt b).keys = s.keys := rfl
@[simp] theorem setSt_draws (s : State) (b : Byte) : (s.setSt b).draws = s.draws := rfl
@[simp] theorem setSt_params (s : State) (b : Byte) : (s.setSt b).params = s.params := rfl
@[simp] theorem setSt_hostEvents (s : State) (b : Byte) : (s.setSt b).hostEvents = s.hostEvents := rfl
@[simp] theorem setSt_reg (s : State) (b : Byte) (q : Reg) : (s.setSt b).reg q = s.reg q := rfl
@[simp] theorem setSt_slot (s : State) (b : Byte) (q : Fin 16) : (s.setSt b).slot q = s.slot q := rfl
@[simp] theorem setSt_byteAt (s : State) (b : Byte) (q : Nat) : (s.setSt b).byteAt q = s.byteAt q := rfl
@[simp] theorem setSt_pixel (s : State) (b : Byte) (qx : Fin 64) (qy : Fin 32) : (s.setSt b).pixel qx qy = s.pixel qx qy := rfl
@[simp] theorem setSt_key (s : State) (b : Byte) (q : Key) : (s.setSt b).key q = s.key q := rfl

/-! ## setByte -/

@[simp] theorem setByte_v (s : State) (a : Nat) (b : Byte) : (s.setByte a b).v = s.v := rfl
@[simp] theorem setByte_i (s : State) (a : Nat) (b : Byte) : (s.setByte a b).i = s.i := rfl
@[simp] theorem setByte_pc (s : State) (a : Nat) (b : Byte) : (s.setByte a b).pc = s.pc := rfl
@[simp] theorem setByte_sp (s : State) (a : Nat) (b : Byte) : (s.setByte a b).sp = s.sp := rfl
@[simp] theorem setByte_stack (s : State) (a : Nat) (b : Byte) : (s.setByte a b).stack = s.stack := rfl
@[simp] theorem setByte_dt (s : State) (a : Nat) (b : Byte) : (s.setByte a b).dt = s.dt := rfl
@[simp] theorem setByte_st (s : State) (a : Nat) (b : Byte) : (s.setByte a b).st = s.st := rfl
@[simp] theorem setByte_mem (s : State) (a : Nat) (b : Byte) : (s.setByte a b).mem = Memory.set s.params s.mem a b := rfl
@[simp] theorem setByte_fb (s : State) (a : Nat) (b : Byte) : (s.setByte a b).fb = s.fb := rfl
@[simp] theorem setByte_keys (s : State) (a : Nat) (b : Byte) : (s.setByte a b).keys = s.keys := rfl
@[simp] theorem setByte_draws (s : State) (a : Nat) (b : Byte) : (s.setByte a b).draws = s.draws := rfl
@[simp] theorem setByte_params (s : State) (a : Nat) (b : Byte) : (s.setByte a b).params = s.params := rfl
@[simp] theorem setByte_hostEvents (s : State) (a : Nat) (b : Byte) : (s.setByte a b).hostEvents = s.hostEvents := rfl
@[simp] theorem setByte_reg (s : State) (a : Nat) (b : Byte) (q : Reg) : (s.setByte a b).reg q = s.reg q := rfl
@[simp] theorem setByte_slot (s : State) (a : Nat) (b : Byte) (q : Fin 16) : (s.setByte a b).slot q = s.slot q := rfl
@[simp] theorem setByte_pixel (s : State) (a : Nat) (b : Byte) (qx : Fin 64) (qy : Fin 32) : (s.setByte a b).pixel qx qy = s.pixel qx qy := rfl
@[simp] theorem setByte_key (s : State) (a : Nat) (b : Byte) (q : Key) : (s.setByte a b).key q = s.key q := rfl

/-! ## setFb -/

@[simp] theorem setFb_v (s : State) (fb : Framebuffer) : (s.setFb fb).v = s.v := rfl
@[simp] theorem setFb_i (s : State) (fb : Framebuffer) : (s.setFb fb).i = s.i := rfl
@[simp] theorem setFb_pc (s : State) (fb : Framebuffer) : (s.setFb fb).pc = s.pc := rfl
@[simp] theorem setFb_sp (s : State) (fb : Framebuffer) : (s.setFb fb).sp = s.sp := rfl
@[simp] theorem setFb_stack (s : State) (fb : Framebuffer) : (s.setFb fb).stack = s.stack := rfl
@[simp] theorem setFb_dt (s : State) (fb : Framebuffer) : (s.setFb fb).dt = s.dt := rfl
@[simp] theorem setFb_st (s : State) (fb : Framebuffer) : (s.setFb fb).st = s.st := rfl
@[simp] theorem setFb_mem (s : State) (fb : Framebuffer) : (s.setFb fb).mem = s.mem := rfl
@[simp] theorem setFb_fb (s : State) (fb : Framebuffer) : (s.setFb fb).fb = fb := rfl
@[simp] theorem setFb_keys (s : State) (fb : Framebuffer) : (s.setFb fb).keys = s.keys := rfl
@[simp] theorem setFb_draws (s : State) (fb : Framebuffer) : (s.setFb fb).draws = s.draws := rfl
@[simp] theorem setFb_params (s : State) (fb : Framebuffer) : (s.setFb fb).params = s.params := rfl
@[simp] theorem setFb_hostEvents (s : State) (fb : Framebuffer) : (s.setFb fb).hostEvents = s.hostEvents := rfl
@[simp] theorem setFb_reg (s : State) (fb : Framebuffer) (q : Reg) : (s.setFb fb).reg q = s.reg q := rfl
@[simp] theorem setFb_slot (s : State) (fb : Framebuffer) (q : Fin 16) : (s.setFb fb).slot q = s.slot q := rfl
@[simp] theorem setFb_byteAt (s : State) (fb : Framebuffer) (q : Nat) : (s.setFb fb).byteAt q = s.byteAt q := rfl
@[simp] theorem setFb_key (s : State) (fb : Framebuffer) (q : Key) : (s.setFb fb).key q = s.key q := rfl

/-! ## setKeyBit -/

@[simp] theorem setKeyBit_v (s : State) (k : Key) (p : Bool) : (s.setKeyBit k p).v = s.v := rfl
@[simp] theorem setKeyBit_i (s : State) (k : Key) (p : Bool) : (s.setKeyBit k p).i = s.i := rfl
@[simp] theorem setKeyBit_pc (s : State) (k : Key) (p : Bool) : (s.setKeyBit k p).pc = s.pc := rfl
@[simp] theorem setKeyBit_sp (s : State) (k : Key) (p : Bool) : (s.setKeyBit k p).sp = s.sp := rfl
@[simp] theorem setKeyBit_stack (s : State) (k : Key) (p : Bool) : (s.setKeyBit k p).stack = s.stack := rfl
@[simp] theorem setKeyBit_dt (s : State) (k : Key) (p : Bool) : (s.setKeyBit k p).dt = s.dt := rfl
@[simp] theorem setKeyBit_st (s : State) (k : Key) (p : Bool) : (s.setKeyBit k p).st = s.st := rfl
@[simp] theorem setKeyBit_mem (s : State) (k : Key) (p : Bool) : (s.setKeyBit k p).mem = s.mem := rfl
@[simp] theorem setKeyBit_fb (s : State) (k : Key) (p : Bool) : (s.setKeyBit k p).fb = s.fb := rfl
@[simp] theorem setKeyBit_keys (s : State) (k : Key) (p : Bool) : (s.setKeyBit k p).keys = s.keys.set k.val p k.isLt := rfl
@[simp] theorem setKeyBit_draws (s : State) (k : Key) (p : Bool) : (s.setKeyBit k p).draws = s.draws := rfl
@[simp] theorem setKeyBit_params (s : State) (k : Key) (p : Bool) : (s.setKeyBit k p).params = s.params := rfl
@[simp] theorem setKeyBit_hostEvents (s : State) (k : Key) (p : Bool) : (s.setKeyBit k p).hostEvents = s.hostEvents := rfl
@[simp] theorem setKeyBit_reg (s : State) (k : Key) (p : Bool) (q : Reg) : (s.setKeyBit k p).reg q = s.reg q := rfl
@[simp] theorem setKeyBit_slot (s : State) (k : Key) (p : Bool) (q : Fin 16) : (s.setKeyBit k p).slot q = s.slot q := rfl
@[simp] theorem setKeyBit_byteAt (s : State) (k : Key) (p : Bool) (q : Nat) : (s.setKeyBit k p).byteAt q = s.byteAt q := rfl
@[simp] theorem setKeyBit_pixel (s : State) (k : Key) (p : Bool) (qx : Fin 64) (qy : Fin 32) : (s.setKeyBit k p).pixel qx qy = s.pixel qx qy := rfl

/-! ## countDraw -/

@[simp] theorem countDraw_v (s : State) : (s.countDraw).v = s.v := rfl
@[simp] theorem countDraw_i (s : State) : (s.countDraw).i = s.i := rfl
@[simp] theorem countDraw_pc (s : State) : (s.countDraw).pc = s.pc := rfl
@[simp] theorem countDraw_sp (s : State) : (s.countDraw).sp = s.sp := rfl
@[simp] theorem countDraw_stack (s : State) : (s.countDraw).stack = s.stack := rfl
@[simp] theorem countDraw_dt (s : State) : (s.countDraw).dt = s.dt := rfl
@[simp] theorem countDraw_st (s : State) : (s.countDraw).st = s.st := rfl
@[simp] theorem countDraw_mem (s : State) : (s.countDraw).mem = s.mem := rfl
@[simp] theorem countDraw_fb (s : State) : (s.countDraw).fb = s.fb := rfl
@[simp] theorem countDraw_keys (s : State) : (s.countDraw).keys = s.keys := rfl
@[simp] theorem countDraw_draws (s : State) : (s.countDraw).draws = s.draws + 1 := rfl
@[simp] theorem countDraw_params (s : State) : (s.countDraw).params = s.params := rfl
@[simp] theorem countDraw_hostEvents (s : State) : (s.countDraw).hostEvents = s.hostEvents := rfl
@[simp] theorem countDraw_reg (s : State) (q : Reg) : (s.countDraw).reg q = s.reg q := rfl
@[simp] theorem countDraw_slot (s : State) (q : Fin 16) : (s.countDraw).slot q = s.slot q := rfl
@[simp] theorem countDraw_byteAt (s : State) (q : Nat) : (s.countDraw).byteAt q = s.byteAt q := rfl
@[simp] theorem countDraw_pixel (s : State) (qx : Fin 64) (qy : Fin 32) : (s.countDraw).pixel qx qy = s.pixel qx qy := rfl
@[simp] theorem countDraw_key (s : State) (q : Key) : (s.countDraw).key q = s.key q := rfl

/-! ## setHostEvents -/

@[simp] theorem setHostEvents_v (s : State) (es : List Event) : (s.setHostEvents es).v = s.v := rfl
@[simp] theorem setHostEvents_i (s : State) (es : List Event) : (s.setHostEvents es).i = s.i := rfl
@[simp] theorem setHostEvents_pc (s : State) (es : List Event) : (s.setHostEvents es).pc = s.pc := rfl
@[simp] theorem setHostEvents_sp (s : State) (es : List Event) : (s.setHostEvents es).sp = s.sp := rfl
@[simp] theorem setHostEvents_stack (s : State) (es : List Event) : (s.setHostEvents es).stack = s.stack := rfl
@[simp] theorem setHostEvents_dt (s : State) (es : List Event) : (s.setHostEvents es).dt = s.dt := rfl
@[simp] theorem setHostEvents_st (s : State) (es : List Event) : (s.setHostEvents es).st = s.st := rfl
@[simp] theorem setHostEvents_mem (s : State) (es : List Event) : (s.setHostEvents es).mem = s.mem := rfl
@[simp] theorem setHostEvents_fb (s : State) (es : List Event) : (s.setHostEvents es).fb = s.fb := rfl
@[simp] theorem setHostEvents_keys (s : State) (es : List Event) : (s.setHostEvents es).keys = s.keys := rfl
@[simp] theorem setHostEvents_draws (s : State) (es : List Event) : (s.setHostEvents es).draws = s.draws := rfl
@[simp] theorem setHostEvents_params (s : State) (es : List Event) : (s.setHostEvents es).params = s.params := rfl
@[simp] theorem setHostEvents_hostEvents (s : State) (es : List Event) : (s.setHostEvents es).hostEvents = es := rfl
@[simp] theorem setHostEvents_reg (s : State) (es : List Event) (q : Reg) : (s.setHostEvents es).reg q = s.reg q := rfl
@[simp] theorem setHostEvents_slot (s : State) (es : List Event) (q : Fin 16) : (s.setHostEvents es).slot q = s.slot q := rfl
@[simp] theorem setHostEvents_byteAt (s : State) (es : List Event) (q : Nat) : (s.setHostEvents es).byteAt q = s.byteAt q := rfl
@[simp] theorem setHostEvents_pixel (s : State) (es : List Event) (qx : Fin 64) (qy : Fin 32) : (s.setHostEvents es).pixel qx qy = s.pixel qx qy := rfl
@[simp] theorem setHostEvents_key (s : State) (es : List Event) (q : Key) : (s.setHostEvents es).key q = s.key q := rfl

/-! ## advance -/

@[simp] theorem advance_v (s : State) : (s.advance).v = s.v := rfl
@[simp] theorem advance_i (s : State) : (s.advance).i = s.i := rfl
@[simp] theorem advance_pc (s : State) : (s.advance).pc = s.pc + 2 := rfl
@[simp] theorem advance_sp (s : State) : (s.advance).sp = s.sp := rfl
@[simp] theorem advance_stack (s : State) : (s.advance).stack = s.stack := rfl
@[simp] theorem advance_dt (s : State) : (s.advance).dt = s.dt := rfl
@[simp] theorem advance_st (s : State) : (s.advance).st = s.st := rfl
@[simp] theorem advance_mem (s : State) : (s.advance).mem = s.mem := rfl
@[simp] theorem advance_fb (s : State) : (s.advance).fb = s.fb := rfl
@[simp] theorem advance_keys (s : State) : (s.advance).keys = s.keys := rfl
@[simp] theorem advance_draws (s : State) : (s.advance).draws = s.draws := rfl
@[simp] theorem advance_params (s : State) : (s.advance).params = s.params := rfl
@[simp] theorem advance_hostEvents (s : State) : (s.advance).hostEvents = s.hostEvents := rfl
@[simp] theorem advance_reg (s : State) (q : Reg) : (s.advance).reg q = s.reg q := rfl
@[simp] theorem advance_slot (s : State) (q : Fin 16) : (s.advance).slot q = s.slot q := rfl
@[simp] theorem advance_byteAt (s : State) (q : Nat) : (s.advance).byteAt q = s.byteAt q := rfl
@[simp] theorem advance_pixel (s : State) (qx : Fin 64) (qy : Fin 32) : (s.advance).pixel qx qy = s.pixel qx qy := rfl
@[simp] theorem advance_key (s : State) (q : Key) : (s.advance).key q = s.key q := rfl

/-! ## skipIf -/

@[simp] theorem skipIf_v (s : State) (c : Bool) : (s.skipIf c).v = s.v := rfl
@[simp] theorem skipIf_i (s : State) (c : Bool) : (s.skipIf c).i = s.i := rfl
@[simp] theorem skipIf_pc (s : State) (c : Bool) : (s.skipIf c).pc = if c then s.pc + 4 else s.pc + 2 := rfl
@[simp] theorem skipIf_sp (s : State) (c : Bool) : (s.skipIf c).sp = s.sp := rfl
@[simp] theorem skipIf_stack (s : State) (c : Bool) : (s.skipIf c).stack = s.stack := rfl
@[simp] theorem skipIf_dt (s : State) (c : Bool) : (s.skipIf c).dt = s.dt := rfl
@[simp] theorem skipIf_st (s : State) (c : Bool) : (s.skipIf c).st = s.st := rfl
@[simp] theorem skipIf_mem (s : State) (c : Bool) : (s.skipIf c).mem = s.mem := rfl
@[simp] theorem skipIf_fb (s : State) (c : Bool) : (s.skipIf c).fb = s.fb := rfl
@[simp] theorem skipIf_keys (s : State) (c : Bool) : (s.skipIf c).keys = s.keys := rfl
@[simp] theorem skipIf_draws (s : State) (c : Bool) : (s.skipIf c).draws = s.draws := rfl
@[simp] theorem skipIf_params (s : State) (c : Bool) : (s.skipIf c).params = s.params := rfl
@[simp] theorem skipIf_hostEvents (s : State) (c : Bool) : (s.skipIf c).hostEvents = s.hostEvents := rfl
@[simp] theorem skipIf_reg (s : State) (c : Bool) (q : Reg) : (s.skipIf c).reg q = s.reg q := rfl
@[simp] theorem skipIf_slot (s : State) (c : Bool) (q : Fin 16) : (s.skipIf c).slot q = s.slot q := rfl
@[simp] theorem skipIf_byteAt (s : State) (c : Bool) (q : Nat) : (s.skipIf c).byteAt q = s.byteAt q := rfl
@[simp] theorem skipIf_pixel (s : State) (c : Bool) (qx : Fin 64) (qy : Fin 32) : (s.skipIf c).pixel qx qy = s.pixel qx qy := rfl
@[simp] theorem skipIf_key (s : State) (c : Bool) (q : Key) : (s.skipIf c).key q = s.key q := rfl

/-! ## An accessor after its own update -/

@[simp] theorem setReg_reg (s : State) (r : Reg) (b : Byte) (q : Reg) :
    (s.setReg r b).reg q = if r = q then b else s.reg q := by
  simp only [reg, setReg, Vector.get_eq_getElem, Vector.getElem_set, Fin.ext_iff]

@[simp] theorem setSlot_slot (s : State) (j : Fin 16) (w : Word) (q : Fin 16) :
    (s.setSlot j w).slot q = if j = q then w else s.slot q := by
  simp only [slot, setSlot, Vector.get_eq_getElem, Vector.getElem_set, Fin.ext_iff]

@[simp] theorem setKeyBit_key (s : State) (k : Key) (p : Bool) (q : Key) :
    (s.setKeyBit k p).key q = if k = q then p else s.key q := by
  simp only [key, setKeyBit, Vector.get_eq_getElem, Vector.getElem_set, Fin.ext_iff]

@[simp] theorem setFb_pixel (s : State) (fb : Framebuffer) (x : Fin 64) (y : Fin 32) :
    (s.setFb fb).pixel x y = fb.pixel x y := rfl

end Sys2Proof.Machine.State
end

