-- ==== Sys2Proof/Laws/Memory.lean ====
section
/-! SUPPORT. MEM: reading after writing, and every write keeps the canonical form. -/

namespace Sys2Proof.Machine

namespace Memory

@[simp] theorem get_nil (p : Params) (a : Nat) : get p [] a = unlistedByte p a := rfl

@[simp] theorem get_cons (p : Params) (c : Host.Cell) (m : Memory) (a : Nat) :
    get p (c :: m) a = if a = c.1 then c.2 else get p m a := rfl

/-- Reading after listing a byte. -/
theorem get_insert (p : Params) (m : Memory) (a : Nat) (w : Byte) (b : Nat) :
    get p (insert a w m) b = if b = a then w else get p m b := by
  induction m with
  | nil => simp [insert]
  | cons c m ih =>
    obtain ⟨d, u⟩ := c
    by_cases h1 : a < d
    · simp [insert, h1]
    · by_cases h2 : a = d
      · subst h2
        by_cases hb : b = a <;> simp [insert, hb]
      · simp only [insert, h1, h2, if_false, get_cons, ih]
        by_cases hb : b = d
        · subst hb
          simp [Ne.symm h2]
        · simp [hb]

/-- Reading after listing nothing for an address. -/
theorem get_erase (p : Params) (m : Memory) (a b : Nat) :
    get p (erase a m) b = if b = a then unlistedByte p b else get p m b := by
  induction m with
  | nil => simp [erase]
  | cons c m ih =>
    obtain ⟨d, u⟩ := c
    simp only [erase] at ih
    by_cases hd : d = a
    · subst hd
      by_cases hb : b = d
      · subst hb
        simpa [erase] using ih
      · simpa [erase, hb] using ih
    · by_cases hb : b = d
      · subst hb
        simp [erase, hd]
      · simp [erase, hd, hb, ih]

/-- Reading after a write: the byte written at its address, what was there everywhere else. -/
theorem get_set (p : Params) (m : Memory) (a : Nat) (w : Byte) (b : Nat) :
    get p (set p m a w) b = if b = a then w else get p m b := by
  unfold set
  split
  · rename_i h
    rw [get_erase]
    by_cases hb : b = a <;> simp [hb, h]
  · exact get_insert p m a w b

/-- Every address listed is above `a`. -/
theorem rising_cons_iff (c : Host.Cell) (m : Memory) :
    rising (c :: m) = true ↔ (∀ d ∈ m, c.1 < d.1) ∧ rising m = true := by
  induction m generalizing c with
  | nil => simp [rising]
  | cons d m ih =>
    simp only [rising, Bool.and_eq_true, decide_eq_true_eq, List.mem_cons, forall_eq_or_imp]
    constructor
    · rintro ⟨h1, h2⟩
      refine ⟨⟨h1, fun e he => ?_⟩, h2⟩
      have := ((ih d).1 h2).1 e he
      omega
    · rintro ⟨⟨h1, _⟩, h2⟩
      exact ⟨h1, h2⟩

theorem mem_insert {a : Nat} {w : Byte} {m : Memory} {c : Host.Cell} (h : c ∈ insert a w m) : c = (a, w) ∨ c ∈ m := by
  induction m with
  | nil => simpa [insert] using h
  | cons d m ih =>
    simp only [insert] at h
    split at h
    · simpa using h
    · split at h
      · simp only [List.mem_cons] at h ⊢
        tauto
      · simp only [List.mem_cons] at h ⊢
        rcases h with h | h
        · tauto
        · rcases ih h with h | h <;> tauto

theorem rising_insert {a : Nat} {w : Byte} {m : Memory} (h : rising m = true) : rising (insert a w m) = true := by
  induction m with
  | nil => rfl
  | cons d m ih =>
    obtain ⟨hd, hm⟩ := (rising_cons_iff d m).1 h
    simp only [insert]
    split
    · rename_i h1
      refine (rising_cons_iff _ _).2 ⟨?_, h⟩
      intro e he
      rcases List.mem_cons.1 he with rfl | he
      · exact h1
      · exact lt_trans h1 (hd e he)
    · split
      · rename_i h2
        subst h2
        exact (rising_cons_iff _ _).2 ⟨hd, hm⟩
      · rename_i h1 h2
        refine (rising_cons_iff _ _).2 ⟨?_, ih hm⟩
        intro e he
        rcases mem_insert he with rfl | he
        · simp only; omega
        · exact hd e he

theorem rising_filter {m : Memory} (q : Host.Cell → Bool) (h : rising m = true) : rising (m.filter q) = true := by
  induction m with
  | nil => rfl
  | cons d m ih =>
    obtain ⟨hd, hm⟩ := (rising_cons_iff d m).1 h
    rw [List.filter_cons]
    split
    · exact (rising_cons_iff _ _).2 ⟨fun e he => hd e (List.mem_filter.1 he).1, ih hm⟩
    · exact ih hm

/-- The canonical form, said cell by cell. -/
theorem wf_iff (p : Params) (m : Memory) :
    wf p m = true ↔ rising m = true ∧ ∀ c ∈ m, c.1 < 4096 ∧ c.2 ≠ unlistedByte p c.1 := by
  simp [wf, List.all_eq_true]

theorem wf_nil (p : Params) : wf p [] = true := rfl

/-- A write inside MEM keeps the canonical form. -/
theorem wf_set {p : Params} {m : Memory} {a : Nat} {w : Byte} (ha : a < 4096) (h : wf p m = true) :
    wf p (set p m a w) = true := by
  rw [wf_iff] at h ⊢
  obtain ⟨hr, hc⟩ := h
  unfold set
  split
  · exact ⟨rising_filter _ hr, fun c hcm => hc c (List.mem_filter.1 hcm).1⟩
  · rename_i hw
    refine ⟨rising_insert hr, fun c hcm => ?_⟩
    rcases mem_insert hcm with rfl | hcm
    · exact ⟨ha, hw⟩
    · exact hc c hcm

end Memory

/-- `MEM[a]` after a write. -/
@[simp] theorem State.setByte_byteAt (s : State) (a : Nat) (w : Byte) (b : Nat) :
    (s.setByte a w).byteAt b = if b = a then w else s.byteAt b :=
  Memory.get_set s.params s.mem a w b

end Sys2Proof.Machine
end

