-- ==== Sys2Proof/Laws/Ops.lean ====
section
/-! SUPPORT. One lemma per shared operation that says everything it can do. -/

namespace Sys2Proof.Machine

/-! ## The bytes a multi-byte access moves -/

/-- The `n` bytes of memory from `a` on. -/
def bytesFrom (s : State) (a : Nat) : Nat → List Byte
  | 0 => []
  | n + 1 => s.byteAt a :: bytesFrom s (a + 1) n

@[simp] theorem bytesFrom_length (s : State) (a n : Nat) : (bytesFrom s a n).length = n := by
  induction n generalizing a with
  | zero => rfl
  | succ n ih => simp [bytesFrom, ih]

theorem bytesFrom_getElem? (s : State) (a n k : Nat) (hk : k < n) : (bytesFrom s a n)[k]? = some (s.byteAt (a + k)) := by
  induction n generalizing a k with
  | zero => omega
  | succ n ih =>
    cases k with
    | zero => simp [bytesFrom]
    | succ k =>
      simp only [bytesFrom, List.getElem?_cons_succ]
      rw [ih (a + 1) k (by omega)]
      congr 2
      omega

/-- Reads of `n` bytes succeed exactly when they stay inside MEM, or there are none. -/
theorem readBytes_eq (s : State) (a n : Nat) :
    readBytes s a n = if n = 0 ∨ a + n ≤ 4096 then .ok (bytesFrom s a n) else .error .outOfBounds := by
  induction n generalizing a with
  | zero => simp [readBytes, bytesFrom]
  | succ n ih =>
    rw [readBytes, ih (a + 1), memRead8]
    by_cases h1 : a ≤ 4095
    · by_cases h2 : n = 0 ∨ a + 1 + n ≤ 4096
      · rw [if_pos h1, if_pos h2, if_pos (by omega)]
        rfl
      · rw [if_pos h1, if_neg h2, if_neg (by omega)]
    · rw [if_neg h1, if_neg (show ¬(n + 1 = 0 ∨ a + (n + 1) ≤ 4096) by omega)]

/-! ## Copying bytes into memory -/

@[simp] theorem copyBytes_nil (s : State) (a : Nat) : copyBytes s a [] = s := rfl

@[simp] theorem copyBytes_cons (s : State) (a : Nat) (b : Byte) (bs : List Byte) :
    copyBytes s a (b :: bs) = copyBytes (s.setByte a b) (a + 1) bs := rfl

/-- Copying bytes changes memory only. -/
theorem copyBytes_eq (s : State) (a : Nat) (bs : List Byte) :
    copyBytes s a bs = { s with mem := (copyBytes s a bs).mem } := by
  induction bs generalizing s a with
  | nil => rfl
  | cons b bs ih =>
    rw [copyBytes_cons, ih]
    rfl

@[simp] theorem copyBytes_v (s : State) (a : Nat) (bs : List Byte) : (copyBytes s a bs).v = s.v := by rw [copyBytes_eq]
@[simp] theorem copyBytes_i (s : State) (a : Nat) (bs : List Byte) : (copyBytes s a bs).i = s.i := by rw [copyBytes_eq]
@[simp] theorem copyBytes_pc (s : State) (a : Nat) (bs : List Byte) : (copyBytes s a bs).pc = s.pc := by rw [copyBytes_eq]
@[simp] theorem copyBytes_sp (s : State) (a : Nat) (bs : List Byte) : (copyBytes s a bs).sp = s.sp := by rw [copyBytes_eq]
@[simp] theorem copyBytes_stack (s : State) (a : Nat) (bs : List Byte) : (copyBytes s a bs).stack = s.stack := by
  rw [copyBytes_eq]
@[simp] theorem copyBytes_dt (s : State) (a : Nat) (bs : List Byte) : (copyBytes s a bs).dt = s.dt := by rw [copyBytes_eq]
@[simp] theorem copyBytes_st (s : State) (a : Nat) (bs : List Byte) : (copyBytes s a bs).st = s.st := by rw [copyBytes_eq]
@[simp] theorem copyBytes_fb (s : State) (a : Nat) (bs : List Byte) : (copyBytes s a bs).fb = s.fb := by rw [copyBytes_eq]
@[simp] theorem copyBytes_keys (s : State) (a : Nat) (bs : List Byte) : (copyBytes s a bs).keys = s.keys := by
  rw [copyBytes_eq]
@[simp] theorem copyBytes_draws (s : State) (a : Nat) (bs : List Byte) : (copyBytes s a bs).draws = s.draws := by
  rw [copyBytes_eq]
@[simp] theorem copyBytes_params (s : State) (a : Nat) (bs : List Byte) : (copyBytes s a bs).params = s.params := by
  rw [copyBytes_eq]
@[simp] theorem copyBytes_hostEvents (s : State) (a : Nat) (bs : List Byte) :
    (copyBytes s a bs).hostEvents = s.hostEvents := by rw [copyBytes_eq]
@[simp] theorem copyBytes_reg (s : State) (a : Nat) (bs : List Byte) (r : Reg) : (copyBytes s a bs).reg r = s.reg r := by
  rw [State.reg, copyBytes_v]; rfl
@[simp] theorem copyBytes_slot (s : State) (a : Nat) (bs : List Byte) (j : Fin 16) :
    (copyBytes s a bs).slot j = s.slot j := by rw [State.slot, copyBytes_stack]; rfl
@[simp] theorem copyBytes_pixel (s : State) (a : Nat) (bs : List Byte) (x : Fin 64) (y : Fin 32) :
    (copyBytes s a bs).pixel x y = s.pixel x y := by rw [State.pixel, copyBytes_fb]; rfl
@[simp] theorem copyBytes_key (s : State) (a : Nat) (bs : List Byte) (k : Key) : (copyBytes s a bs).key k = s.key k := by
  rw [State.key, copyBytes_keys]; rfl

/-- Outside the bytes copied, memory reads as before. -/
theorem copyBytes_byteAt_outside (s : State) (a : Nat) (bs : List Byte) (b : Nat) (h : b < a ∨ a + bs.length ≤ b) :
    (copyBytes s a bs).byteAt b = s.byteAt b := by
  induction bs generalizing s a with
  | nil => rfl
  | cons c bs ih =>
    simp only [List.length_cons] at h
    rw [copyBytes_cons, ih _ _ (by omega), State.setByte_byteAt, if_neg (by omega)]

/-- Byte `k` of the bytes copied is read at `a + k`. -/
theorem copyBytes_byteAt_inside (s : State) (a : Nat) (bs : List Byte) (k : Nat) (h : k < bs.length) :
    (copyBytes s a bs).byteAt (a + k) = bs[k] := by
  induction bs generalizing s a k with
  | nil => simp at h
  | cons c bs ih =>
    cases k with
    | zero =>
      rw [copyBytes_cons, copyBytes_byteAt_outside _ _ _ _ (by omega)]
      simp
    | succ k =>
      simp only [List.length_cons] at h
      rw [copyBytes_cons, show a + (k + 1) = a + 1 + k by omega, ih _ _ k (by omega)]
      rfl

/-- Copying inside MEM keeps the canonical form. -/
theorem copyBytes_wf (s : State) (a : Nat) (bs : List Byte) (h : a + bs.length ≤ 4096)
    (hw : Memory.wf s.params s.mem = true) : Memory.wf s.params (copyBytes s a bs).mem = true := by
  induction bs generalizing s a with
  | nil => exact hw
  | cons b bs ih =>
    simp only [List.length_cons] at h
    exact ih (s.setByte a b) (a + 1) (by omega) (Memory.wf_set (by omega) hw)

/-- Writes of bytes succeed exactly when they stay inside MEM, or there are none; then all of them land. -/
theorem writeBytes_eq (s : State) (a : Nat) (bs : List Byte) :
    writeBytes s a bs = if bs = [] ∨ a + bs.length ≤ 4096 then .ok (copyBytes s a bs) else .error .outOfBounds := by
  induction bs generalizing s a with
  | nil => simp [writeBytes]
  | cons b bs ih =>
    simp only [writeBytes, memWrite8, List.length_cons]
    by_cases h1 : a ≤ 4095
    · rw [if_pos h1]
      simp only [ih]
      by_cases h2 : bs = [] ∨ a + 1 + bs.length ≤ 4096
      · rw [if_pos h2, if_pos]
        · rfl
        · rcases h2 with rfl | h2
          · right; simp; omega
          · right; omega
      · rw [if_neg h2, if_neg]
        rintro (h | h)
        · simp at h
        · exact h2 (Or.inr (by omega))
    · rw [if_neg h1, if_neg]
      rintro (h | h)
      · simp at h
      · omega

/-! ## The call stack -/

/-- A push on a stack that is not full. -/
theorem push_ok (s : State) (w : Word) (h : s.sp.toNat < 16) :
    push s w = .ok ((s.setSlot ⟨s.sp.toNat, h⟩ w).setSp (s.sp + 1)) := dif_pos h

/-- A push on a full stack. -/
theorem push_full (s : State) (w : Word) (h : 16 ≤ s.sp.toNat) : push s w = .error .stackOverflow :=
  dif_neg (by omega)

/-- A pop from an empty stack. -/
theorem popIntoPc_empty (s : State) (h : s.sp = 0) : popIntoPc s = .fault .stackUnderflow := by
  simp [popIntoPc, h, raise]

/-- A pop from a stack of 1 to 16 entries. -/
theorem popIntoPc_ok (s : State) (j : Fin 16) (h : s.sp.toNat = j.val + 1) :
    popIntoPc s = .next ((s.setSp (s.sp - 1)).setPc (s.slot j)) := by
  have h0 : s.sp ≠ 0 := by
    intro hc
    rw [hc] at h
    simp at h
  have hj : s.sp.toNat - 1 = j.val := by omega
  have ht : top? s = some (s.slot j) := by
    rw [top?, dif_pos (by omega)]
    exact congrArg (fun k => some (s.slot k)) (Fin.ext hj)
  rw [popIntoPc, if_neg h0, ht]

/-! ## Memory primitives -/

theorem memRead16_ok (s : State) (a : Nat) (h : a ≤ 4094) :
    memRead16 s a = .ok (wordOfBytes (s.byteAt a) (s.byteAt (a + 1))) := if_pos h

theorem memRead16_out (s : State) (a : Nat) (h : 4094 < a) : memRead16 s a = .error .outOfBounds := if_neg (by omega)

/-- A byte write inside MEM keeps the canonical form; one outside writes nothing. -/
theorem memWrite8_wf {s t : State} {a : Nat} {b : Byte} (h : memWrite8 s a b = .ok t)
    (hw : Memory.wf s.params s.mem = true) : Memory.wf t.params t.mem = true := by
  unfold memWrite8 at h
  split at h
  · injection h with h
    subst h
    exact Memory.wf_set (by omega) hw
  · simp at h

/-- Bytes written by an instruction keep the canonical form. -/
theorem writeBytes_wf {s t : State} {a : Nat} {bs : List Byte} (h : writeBytes s a bs = .ok t)
    (hw : Memory.wf s.params s.mem = true) : Memory.wf t.params t.mem = true := by
  rw [writeBytes_eq] at h
  split at h
  · rename_i hb
    injection h with h
    subst h
    rw [copyBytes_params]
    rcases hb with rfl | hb
    · exact hw
    · exact copyBytes_wf s a bs hb hw
  · simp at h

/-- LOAD inside MEM. -/
theorem load_ok (bytes : List Byte) (offset : Nat) (s : State) (h : offset + bytes.length ≤ 4096) :
    load bytes offset s = .ok (copyBytes s offset bytes) := if_neg (by omega)

/-- A LOAD keeps the canonical form. -/
theorem load_wf {s t : State} {offset : Nat} {bytes : List Byte} (h : load bytes offset s = .ok t)
    (hw : Memory.wf s.params s.mem = true) : Memory.wf t.params t.mem = true := by
  unfold load at h
  split at h
  · simp at h
  · injection h with h
    subst h
    rw [copyBytes_params]
    exact copyBytes_wf s offset bytes (by omega) hw

/-! ## The host's other events -/

/-- SET_KEY with a key number. -/
theorem setKey_ok (k : Nat) (pressed : Bool) (s : State) (h : k < 16) :
    setKey k pressed s = .ok (s.setKeyBit ⟨k, h⟩ pressed) := dif_pos h

/-- A timer after one TICK, as a number. -/
theorem countDown_toNat (t : Byte) : (countDown t).toNat = t.toNat - 1 := by
  unfold countDown
  split
  · rename_i h; simp [h]
  · rename_i h
    have : t.toNat ≠ 0 := fun hc => h (BitVec.eq_of_toNat_eq (by simpa using hc))
    have := t.isLt
    rw [BitVec.toNat_sub]
    simp
    omega

end Sys2Proof.Machine
end

