-- ==== Sys2Proof/Laws/Operands.lean ====
section
/-! SUPPORT. Operand forms: flags, registers V0 to Vx, keys, the index step. -/

namespace Sys2Proof.Machine

/-! ## Flags -/

/-- A flag value is 0 or 1, as a number. -/
theorem flagByte_toNat (b : Bool) : (flagByte b).toNat = if b then 1 else 0 := by cases b <;> rfl

/-- VF after a flag-writing operation is the flag, whatever the destination. -/
@[simp] theorem setResultThenFlag_VF (s : State) (x : Reg) (result flag : Byte) :
    (s.setResultThenFlag x result flag).reg VF = flag := by simp [State.setResultThenFlag]

/-- The destination holds the result, unless it is VF. -/
theorem setResultThenFlag_dest (s : State) (x : Reg) (result flag : Byte) (h : x ≠ VF) :
    (s.setResultThenFlag x result flag).reg x = result := by
  simp [State.setResultThenFlag, Ne.symm h]

/-- The other registers keep their values. -/
theorem setResultThenFlag_other (s : State) (x : Reg) (result flag : Byte) (r : Reg) (h1 : r ≠ x) (h2 : r ≠ VF) :
    (s.setResultThenFlag x result flag).reg r = s.reg r := by
  simp [State.setResultThenFlag, Ne.symm h1, Ne.symm h2]

/-! ## Registers V0 to Vx -/

theorem mem_regsUpTo (x r : Reg) : r ∈ regsUpTo x ↔ r ≤ x := by revert x r; decide

theorem regsUpTo_getElem? (x r : Reg) (h : r ≤ x) : (regsUpTo x)[r.val]? = some r := by revert x r; decide

@[simp] theorem regsUpTo_length (x : Reg) : (regsUpTo x).length = x.val + 1 := by revert x; decide

theorem regsUpTo_nodup (x : Reg) : (regsUpTo x).Nodup := by revert x; decide

/-- Setting a list of registers changes registers only. -/
theorem setRegs_eq (s : State) (rs : List Reg) (bs : List Byte) : setRegs s rs bs = { s with v := (setRegs s rs bs).v } := by
  induction rs generalizing s bs with
  | nil => simp [setRegs]
  | cons r rs ih =>
    cases bs with
    | nil => simp [setRegs]
    | cons b bs =>
      rw [setRegs, ih]
      rfl

/-- Registers that are not in the list keep their values. -/
theorem setRegs_reg_other (s : State) (rs : List Reg) (bs : List Byte) (r : Reg) (h : r ∉ rs) :
    (setRegs s rs bs).reg r = s.reg r := by
  induction rs generalizing s bs with
  | nil => simp [setRegs]
  | cons q rs ih =>
    simp only [List.mem_cons, not_or] at h
    cases bs with
    | nil => simp [setRegs]
    | cons b bs =>
      rw [setRegs, ih _ _ h.2]
      simp [Ne.symm h.1]

/-- The k-th register of a list without repeats receives the k-th byte. -/
theorem setRegs_reg_at (s : State) (rs : List Reg) (bs : List Byte) (k : Nat) (r : Reg) (b : Byte) (hn : rs.Nodup)
    (hr : rs[k]? = some r) (hb : bs[k]? = some b) : (setRegs s rs bs).reg r = b := by
  induction rs generalizing s bs k with
  | nil => simp at hr
  | cons q rs ih =>
    cases bs with
    | nil => simp at hb
    | cons c bs =>
      rw [List.nodup_cons] at hn
      cases k with
      | zero =>
        simp only [List.getElem?_cons_zero, Option.some.injEq] at hr hb
        subst hr hb
        rw [setRegs, setRegs_reg_other _ _ _ _ hn.1]
        simp
      | succ k =>
        simp only [List.getElem?_cons_succ] at hr hb
        exact ih (s.setReg q c) bs k hn.2 hr hb

/-! ## The index step of LD [I],Vx and LD Vx,[I] -/

/-- It changes I at most. -/
theorem stepIndex_eq (s : State) (x : Reg) : s.stepIndex x = s.setI (s.stepIndex x).i := by
  unfold State.stepIndex
  split <;> rfl

/-- What it leaves in I. -/
theorem stepIndex_i (s : State) (x : Reg) :
    (s.stepIndex x).i = match s.params.ldstI with
      | .unchanged => s.i
      | .addXPlus1 => s.i + BitVec.ofNat 16 (x.val + 1) := by
  unfold State.stepIndex
  split <;> simp_all

/-! ## Keys -/

theorem keyOf_ok (v : Byte) (h : v.toNat < 16) : keyOf v = .ok ⟨v.toNat, h⟩ := dif_pos h

theorem keyOf_out (v : Byte) (h : 16 ≤ v.toNat) : keyOf v = .error .invalidKey := dif_neg (by omega)

theorem mem_allKeys (k : Key) : k ∈ allKeys := by revert k; decide

/-- No key is found exactly when none is pressed. -/
theorem leastPressed_none_iff (s : State) : leastPressed s = none ↔ ∀ k, s.key k = false := by
  simp [leastPressed, List.find?_eq_none, mem_allKeys]

/-- The key found is pressed, and no lower one is. -/
theorem leastPressed_some_iff (s : State) (k : Key) :
    leastPressed s = some k ↔ s.key k = true ∧ ∀ j, j < k → s.key j = false := by
  have hsort : allKeys = List.ofFn (fun k : Fin 16 => k) := by decide
  rw [leastPressed, hsort, List.find?_ofFn_eq_some_of_injective (fun _ _ h => h)]
  simp
end Sys2Proof.Machine
end

