-- ==== Sys2Proof/Laws/Display.lean ====
section
/-! SUPPORT. Drawing: which pixels a sprite inverts, and what inverting a list of pixels does. -/

namespace Sys2Proof.Machine

/-! ## One pixel -/

theorem Framebuffer.pixel_flip (fb : Framebuffer) (x : Fin 64) (y : Fin 32) (x' : Fin 64) (y' : Fin 32) :
    (fb.flip x y).pixel x' y' = if x = x' ∧ y = y' then !(fb.pixel x y) else fb.pixel x' y' := by
  simp only [pixel, flip, Vector.get_eq_getElem, Vector.getElem_set, Fin.ext_iff]
  by_cases hy : y.val = y'.val
  · obtain rfl : y = y' := Fin.ext hy
    by_cases hx : x.val = x'.val
    · simp [hx]
    · simp [hx]
  · simp [hy]

theorem Framebuffer.pixel_blank (x : Fin 64) (y : Fin 32) : Framebuffer.blank.pixel x y = false := by
  simp [pixel, blank, Vector.get_eq_getElem]

/-! ## A list of pixels, none listed twice -/

/-- A pixel after drawing: inverted exactly when it is listed. -/
theorem drawTargets_pixel (fb : Framebuffer) (col : Bool) (cs : List Coord) (h : cs.Nodup) (c : Coord) :
    (drawTargets fb col cs).1.pixel c.x c.y = (fb.pixel c.x c.y ^^ decide (c ∈ cs)) := by
  induction cs generalizing fb col with
  | nil => simp [drawTargets]
  | cons d cs ih =>
    rw [List.nodup_cons] at h
    rw [drawTargets, ih _ _ h.2, Framebuffer.pixel_flip]
    by_cases hd : c = d
    · subst hd
      simp [h.1]
    · have : ¬(d.x = c.x ∧ d.y = c.y) := by
        rintro ⟨h1, h2⟩
        cases c; cases d
        simp_all
      simp [hd, this]

/-- The collision bit after drawing: one of the listed pixels was on (or the bit was set before). -/
theorem drawTargets_collision (fb : Framebuffer) (col : Bool) (cs : List Coord) (h : cs.Nodup) :
    (drawTargets fb col cs).2 = (col || cs.any fun c => fb.pixel c.x c.y) := by
  induction cs generalizing fb col with
  | nil => simp [drawTargets]
  | cons d cs ih =>
    rw [List.nodup_cons] at h
    rw [drawTargets, ih _ _ h.2, List.any_cons, Bool.or_assoc]
    congr 2
    rw [Bool.eq_iff_iff, List.any_eq_true, List.any_eq_true]
    refine exists_congr fun c => and_congr_right fun hc => ?_
    rw [Framebuffer.pixel_flip, if_neg]
    rintro ⟨h1, h2⟩
    apply h.1
    cases c; cases d
    simp_all

/-! ## The pixels of a sprite -/

/-- A pixel column of a sprite row that is drawn keeps its place in the row (R172, R173). -/
theorem pixelTarget_inj {edge : DrwEdge} {vx vy : Byte} {r r' k k' : Nat} {c : Coord} (hr : r < 32) (hr' : r' < 32)
    (hk : k < 8) (hk' : k' < 8) (h : pixelTarget edge vx vy r k = some c) (h' : pixelTarget edge vx vy r' k' = some c) :
    r = r' ∧ k = k' := by
  cases edge with
  | wrap =>
    simp only [pixelTarget, Option.some.injEq] at h h'
    subst h
    simp only [Coord.mk.injEq, Fin.ext_iff, Fin.ofNat] at h'
    omega
  | clip =>
    simp only [pixelTarget] at h h'
    split at h
    · split at h'
      · simp only [Option.some.injEq] at h h'
        subst h
        simp only [Coord.mk.injEq, Fin.ext_iff] at h'
        omega
      · simp at h'
    · simp at h

theorem mem_rowTargets {edge : DrwEdge} {vx vy : Byte} {r : Nat} {row : Byte} {c : Coord} :
    c ∈ rowTargets edge vx vy r row ↔ ∃ k, k < 8 ∧ spriteBit row k = true ∧ pixelTarget edge vx vy r k = some c := by
  have h8 : ∀ k : Nat, k ∈ [0, 1, 2, 3, 4, 5, 6, 7] ↔ k < 8 := by
    intro k
    simp only [List.mem_cons, List.not_mem_nil, or_false]
    omega
  simp only [rowTargets, List.mem_filterMap, h8]
  refine exists_congr fun k => and_congr_right fun _ => ?_
  by_cases hb : spriteBit row k = true <;> simp [hb]

theorem rowTargets_nodup (edge : DrwEdge) (vx vy : Byte) (r : Nat) (row : Byte) (hr : r < 32) :
    (rowTargets edge vx vy r row).Nodup := by
  have hne : [0, 1, 2, 3, 4, 5, 6, 7].Pairwise fun k k' : Nat => k < 8 ∧ k' < 8 ∧ k ≠ k' := by decide
  rw [List.Nodup, rowTargets, List.pairwise_filterMap]
  refine hne.imp ?_
  rintro k k' ⟨hk, hk', hkk⟩ c hc d hd rfl
  rw [Option.ite_none_right_eq_some] at hc hd
  exact hkk (pixelTarget_inj hr hr hk hk' hc.2 hd.2).2

theorem mem_spriteTargets {edge : DrwEdge} {vx vy : Byte} {r : Nat} {rows : List Byte} {c : Coord} :
    c ∈ spriteTargets edge vx vy r rows ↔
      ∃ j row, rows[j]? = some row ∧ c ∈ rowTargets edge vx vy (r + j) row := by
  induction rows generalizing r with
  | nil => simp [spriteTargets]
  | cons row rows ih =>
    rw [spriteTargets, List.mem_append, ih]
    constructor
    · rintro (h | ⟨j, row', hj, h⟩)
      · exact ⟨0, row, rfl, h⟩
      · exact ⟨j + 1, row', hj, by rwa [show r + (j + 1) = r + 1 + j by omega]⟩
    · rintro ⟨j, row', hj, h⟩
      cases j with
      | zero =>
        simp only [List.getElem?_cons_zero, Option.some.injEq] at hj
        subst hj
        exact Or.inl h
      | succ j => exact Or.inr ⟨j, row', hj, by rwa [show r + 1 + j = r + (j + 1) by omega]⟩

/-- No pixel is touched twice by one sprite (R172): 32 rows fit, and a row is 8 pixels. -/
theorem spriteTargets_nodup (edge : DrwEdge) (vx vy : Byte) (r : Nat) (rows : List Byte) (h : r + rows.length ≤ 32) :
    (spriteTargets edge vx vy r rows).Nodup := by
  induction rows generalizing r with
  | nil => exact List.nodup_nil
  | cons row rows ih =>
    simp only [List.length_cons] at h
    rw [spriteTargets, List.nodup_append]
    refine ⟨rowTargets_nodup _ _ _ _ _ (by omega), ih _ (by omega), ?_⟩
    rintro c hc d hd rfl
    obtain ⟨k, hk, _, h1⟩ := mem_rowTargets.1 hc
    obtain ⟨j, row', hj, hd⟩ := mem_spriteTargets.1 hd
    obtain ⟨k', hk', _, h2⟩ := mem_rowTargets.1 hd
    have hj' : j < rows.length := (List.getElem?_eq_some_iff.1 hj).1
    have := pixelTarget_inj (by omega) (by omega) hk hk' h1 h2
    omega

end Sys2Proof.Machine
end

