-- ==== Sys2Proof/Laws/PerInstr.lean ====
section
/-! SUPPORT. The family EncodesInRow: the opcode of an instruction lies in that instruction's row of the opcode map
(spec/30_encoding.md R85, R86), one lemma per constructor. -/

namespace Sys2Proof.Laws.EncodesInRow

/-- The instruction has a row, and `(op AND mask) = match` holds of its opcode. -/
def Statement (i : Instr) : Prop := ∃ r, i.row? = some r ∧ r.covers (encode i) = true

/-- A row with mask F000 covers every word of its family. -/
theorem mask_family (w m : Word) (h : (nibble3 w).setWidth 16 <<< 12 = m) : (w &&& 0xF000#16) = m := by
  subst h
  apply BitVec.eq_of_getLsbD_eq
  intro k hk
  interval_cases k <;> simp [nibble3]

/-- A row with mask F00F fixes the family and the low nibble. -/
theorem mask_ends (w m : Word) (h : (nibble3 w).setWidth 16 <<< 12 ||| (nibble0 w).setWidth 16 = m) : (w &&& 0xF00F#16) = m := by
  subst h
  apply BitVec.eq_of_getLsbD_eq
  intro k hk
  interval_cases k <;> simp [nibble3, nibble0]

/-- A row with mask F0FF fixes the family and the low byte. -/
theorem mask_family_low (w m : Word) (h : (nibble3 w).setWidth 16 <<< 12 ||| (fieldKk w).setWidth 16 = m) : (w &&& 0xF0FF#16) = m := by
  subst h
  apply BitVec.eq_of_getLsbD_eq
  intro k hk
  interval_cases k <;> simp [nibble3, fieldKk]

theorem cls : Statement .cls := ⟨_, rfl, by decide⟩
theorem ret : Statement .ret := ⟨_, rfl, by decide⟩
theorem jp (nnn : Addr) : Statement (.jp nnn) := ⟨_, rfl, beq_iff_eq.2 (mask_family _ _ (by simp [encode]))⟩
theorem call (nnn : Addr) : Statement (.call nnn) := ⟨_, rfl, beq_iff_eq.2 (mask_family _ _ (by simp [encode]))⟩
theorem ldI (nnn : Addr) : Statement (.ldI nnn) := ⟨_, rfl, beq_iff_eq.2 (mask_family _ _ (by simp [encode]))⟩
theorem jpV0 (nnn : Addr) : Statement (.jpV0 nnn) := ⟨_, rfl, beq_iff_eq.2 (mask_family _ _ (by simp [encode]))⟩
theorem seByte (x : Reg) (kk : Byte) : Statement (.seByte x kk) := ⟨_, rfl, beq_iff_eq.2 (mask_family _ _ (by simp [encode]))⟩
theorem sneByte (x : Reg) (kk : Byte) : Statement (.sneByte x kk) := ⟨_, rfl, beq_iff_eq.2 (mask_family _ _ (by simp [encode]))⟩
theorem ldByte (x : Reg) (kk : Byte) : Statement (.ldByte x kk) := ⟨_, rfl, beq_iff_eq.2 (mask_family _ _ (by simp [encode]))⟩
theorem addByte (x : Reg) (kk : Byte) : Statement (.addByte x kk) := ⟨_, rfl, beq_iff_eq.2 (mask_family _ _ (by simp [encode]))⟩
theorem rnd (x : Reg) (kk : Byte) : Statement (.rnd x kk) := ⟨_, rfl, beq_iff_eq.2 (mask_family _ _ (by simp [encode]))⟩
theorem seReg (x y : Reg) : Statement (.seReg x y) := ⟨_, rfl, beq_iff_eq.2 (mask_ends _ _ (by simp [encode]))⟩
theorem ldReg (x y : Reg) : Statement (.ldReg x y) := ⟨_, rfl, beq_iff_eq.2 (mask_ends _ _ (by simp [encode]))⟩
theorem orReg (x y : Reg) : Statement (.orReg x y) := ⟨_, rfl, beq_iff_eq.2 (mask_ends _ _ (by simp [encode]))⟩
theorem andReg (x y : Reg) : Statement (.andReg x y) := ⟨_, rfl, beq_iff_eq.2 (mask_ends _ _ (by simp [encode]))⟩
theorem xorReg (x y : Reg) : Statement (.xorReg x y) := ⟨_, rfl, beq_iff_eq.2 (mask_ends _ _ (by simp [encode]))⟩
theorem addReg (x y : Reg) : Statement (.addReg x y) := ⟨_, rfl, beq_iff_eq.2 (mask_ends _ _ (by simp [encode]))⟩
theorem subReg (x y : Reg) : Statement (.subReg x y) := ⟨_, rfl, beq_iff_eq.2 (mask_ends _ _ (by simp [encode]))⟩
theorem shr (x y : Reg) : Statement (.shr x y) := ⟨_, rfl, beq_iff_eq.2 (mask_ends _ _ (by simp [encode]))⟩
theorem subnReg (x y : Reg) : Statement (.subnReg x y) := ⟨_, rfl, beq_iff_eq.2 (mask_ends _ _ (by simp [encode]))⟩
theorem shl (x y : Reg) : Statement (.shl x y) := ⟨_, rfl, beq_iff_eq.2 (mask_ends _ _ (by simp [encode]))⟩
theorem sneReg (x y : Reg) : Statement (.sneReg x y) := ⟨_, rfl, beq_iff_eq.2 (mask_ends _ _ (by simp [encode]))⟩
theorem drw (x y : Reg) (n : Nibble) : Statement (.drw x y n) := ⟨_, rfl, beq_iff_eq.2 (mask_family _ _ (by simp [encode]))⟩
theorem skp (x : Reg) : Statement (.skp x) := ⟨_, rfl, beq_iff_eq.2 (mask_family_low _ _ (by simp [encode]))⟩
theorem sknp (x : Reg) : Statement (.sknp x) := ⟨_, rfl, beq_iff_eq.2 (mask_family_low _ _ (by simp [encode]))⟩
theorem ldVxDt (x : Reg) : Statement (.ldVxDt x) := ⟨_, rfl, beq_iff_eq.2 (mask_family_low _ _ (by simp [encode]))⟩
theorem ldVxK (x : Reg) : Statement (.ldVxK x) := ⟨_, rfl, beq_iff_eq.2 (mask_family_low _ _ (by simp [encode]))⟩
theorem ldDtVx (x : Reg) : Statement (.ldDtVx x) := ⟨_, rfl, beq_iff_eq.2 (mask_family_low _ _ (by simp [encode]))⟩
theorem ldStVx (x : Reg) : Statement (.ldStVx x) := ⟨_, rfl, beq_iff_eq.2 (mask_family_low _ _ (by simp [encode]))⟩
theorem addI (x : Reg) : Statement (.addI x) := ⟨_, rfl, beq_iff_eq.2 (mask_family_low _ _ (by simp [encode]))⟩
theorem ldF (x : Reg) : Statement (.ldF x) := ⟨_, rfl, beq_iff_eq.2 (mask_family_low _ _ (by simp [encode]))⟩
theorem ldB (x : Reg) : Statement (.ldB x) := ⟨_, rfl, beq_iff_eq.2 (mask_family_low _ _ (by simp [encode]))⟩
theorem storeRegs (x : Reg) : Statement (.storeRegs x) := ⟨_, rfl, beq_iff_eq.2 (mask_family_low _ _ (by simp [encode]))⟩
theorem loadRegs (x : Reg) : Statement (.loadRegs x) := ⟨_, rfl, beq_iff_eq.2 (mask_family_low _ _ (by simp [encode]))⟩

end Sys2Proof.Laws.EncodesInRow
end

