-- ==== Sys2Proof/Laws/Step.lean ====
section
/-! SUPPORT. What the storing, loading and drawing meanings, an event, and a step can do, each said once. -/

namespace Sys2Proof.Machine

/-! ## Meanings that depend on a parameter -/

theorem execAddI_off (x : Reg) (s : State) (h : s.params.fx1eVf = .off) :
    execAddI x s = .next (s.setI (s.i + byteWord (s.reg x))).advance := by simp only [execAddI, h]

theorem execAddI_on (x : Reg) (s : State) (h : s.params.fx1eVf = .on) :
    execAddI x s = .next ((s.setI (s.i + byteWord (s.reg x))).setReg VF (indexOverflowFlag s.i (s.reg x))).advance := by
  simp only [execAddI, h]

theorem execLdF_digit (x : Reg) (s : State) (h : (s.reg x).toNat ≤ 0xF) :
    execLdF x s = .next (s.setI (fontAddress s.params (s.reg x).toNat)).advance := if_pos h

/-- LD F above 0xF, by FX29_OOR. -/
theorem execLdF_above (x : Reg) (s : State) (h : 0xF < (s.reg x).toNat) :
    execLdF x s = match s.params.fx29Oor with
      | .refuse => .refused .fontDigitOutOfRange
      | .mask => .next (s.setI (fontAddress s.params (s.reg x &&& 0x0F#8).toNat)).advance
      | .linear => .next (s.setI (fontAddress s.params (s.reg x).toNat)).advance
      | .free => .next (s.countDraw.setI (drawnFontAddress s)).advance := if_neg (by omega)

/-! ## Meanings over several bytes -/

theorem bcdDigits_length (v : Byte) : (bcdDigits v).length = 3 := rfl

theorem execLdB_eq (x : Reg) (s : State) :
    execLdB x s = if s.i.toNat + 2 ≤ 4095 then .next (copyBytes s s.i.toNat (bcdDigits (s.reg x))).advance
      else .fault .outOfBounds := by
  rw [execLdB, writeBytes_eq, bcdDigits_length]
  by_cases h : s.i.toNat + 2 ≤ 4095
  · rw [if_pos h, if_pos (Or.inr (by omega))]
    rfl
  · rw [if_neg h, if_neg]
    · rfl
    · rintro (hc | hc)
      · simp [bcdDigits] at hc
      · omega

theorem execStoreRegs_eq (x : Reg) (s : State) :
    execStoreRegs x s = if s.i.toNat + x.val ≤ 4095
      then .next ((copyBytes s s.i.toNat ((regsUpTo x).map s.reg)).stepIndex x).advance else .fault .outOfBounds := by
  rw [execStoreRegs, writeBytes_eq, List.length_map, regsUpTo_length]
  by_cases h : s.i.toNat + x.val ≤ 4095
  · rw [if_pos h, if_pos (Or.inr (by omega))]
  · rw [if_neg h, if_neg]
    · rfl
    · rintro (hc | hc)
      · have := congrArg List.length hc
        simp at this
      · omega

theorem execLoadRegs_eq (x : Reg) (s : State) :
    execLoadRegs x s = if s.i.toNat + x.val ≤ 4095
      then .next ((setRegs s (regsUpTo x) (bytesFrom s s.i.toNat (x.val + 1))).stepIndex x).advance
      else .fault .outOfBounds := by
  rw [execLoadRegs, readBytes_eq]
  by_cases h : s.i.toNat + x.val ≤ 4095
  · rw [if_pos h, if_pos (Or.inr (by omega))]
  · rw [if_neg h, if_neg (show ¬(x.val + 1 = 0 ∨ s.i.toNat + (x.val + 1) ≤ 4096) by omega)]
    rfl

/-- The pixels DRW inverts (R172, R173). -/
def drwTargets (x y : Reg) (n : Nibble) (s : State) : List Coord :=
  spriteTargets s.params.drwEdge (s.reg x) (s.reg y) 0 (bytesFrom s s.i.toNat n.toNat)

theorem drwTargets_nodup (x y : Reg) (n : Nibble) (s : State) : (drwTargets x y n s).Nodup := by
  apply spriteTargets_nodup
  have := n.isLt
  rw [bytesFrom_length]
  omega

theorem execDrw_eq (x y : Reg) (n : Nibble) (s : State) :
    execDrw x y n s = if n.toNat = 0 ∨ s.i.toNat + n.toNat ≤ 4096
      then .next ((s.setFb (drawTargets s.fb false (drwTargets x y n s)).1).setReg VF
        (flagByte (drawTargets s.fb false (drwTargets x y n s)).2)).advance
      else .fault .outOfBounds := by
  rw [execDrw, readBytes_eq]
  by_cases h : n.toNat = 0 ∨ s.i.toNat + n.toNat ≤ 4096
  · rw [if_pos h, if_pos h]
    rfl
  · rw [if_neg h, if_neg h]
    rfl

/-- Which pixels those are: the 1 bits of the rows read, each at its place. -/
theorem mem_drwTargets (x y : Reg) (n : Nibble) (s : State) (c : Coord) :
    c ∈ drwTargets x y n s ↔ ∃ r k, r < n.toNat ∧ k < 8 ∧ spriteBit (s.byteAt (s.i.toNat + r)) k = true ∧
      pixelTarget s.params.drwEdge (s.reg x) (s.reg y) r k = some c := by
  simp only [drwTargets, mem_spriteTargets, mem_rowTargets, Nat.zero_add]
  constructor
  · rintro ⟨r, row, hr, k, hk, hb, ht⟩
    have hn : r < n.toNat := by
      have := (List.getElem?_eq_some_iff.1 hr).1
      rwa [bytesFrom_length] at this
    rw [bytesFrom_getElem? _ _ _ _ hn, Option.some.injEq] at hr
    subst hr
    exact ⟨r, k, hn, hk, hb, ht⟩
  · rintro ⟨r, k, hn, hk, hb, ht⟩
    exact ⟨r, _, bytesFrom_getElem? _ _ _ _ hn, k, hk, hb, ht⟩

/-! ## STEP -/

/-- The instruction at PC, found exactly when both bytes can be read and decode. -/
theorem nextInstr_ok_iff (s : State) (i : Instr) :
    nextInstr s = .ok i ↔
      s.pc.toNat ≤ 4094 ∧ decodeWord (wordOfBytes (s.byteAt s.pc.toNat) (s.byteAt (s.pc.toNat + 1))) = .ok i := by
  unfold nextInstr fetch
  by_cases h : s.pc.toNat ≤ 4094
  · rw [memRead16_ok _ _ h]
    simp only [h, true_and]
    split <;> simp_all
  · rw [memRead16_out _ _ (by omega)]
    simp [h]

/-- A STEP that answers a next state ran one instruction. -/
theorem runStep_next {s t : State} (h : runStep s = .next t) : ∃ i, nextInstr s = .ok i ∧ exec i s = .next t := by
  unfold runStep at h
  split at h
  · exact ⟨_, ‹_›, h⟩
  · cases h

/-! ## Any event -/

/-- Writes that raised no fault. -/
theorem finish_next {r : Except Fault State} {t : State} (h : finish r = .next t) : r = .ok t := by
  cases r with
  | ok u => simpa [finish] using h
  | error f => cases h

/-- An event that answers a next state is one of these five. -/
theorem deliver_next {e : Event} {s t : State} (h : deliver e s = .next t) :
    (e = .step ∧ runStep s = .next t) ∨ (e = .tick ∧ t = tick s) ∨
    (∃ k, ∃ p : Bool, ∃ hk : k < 16, e = .setKey k p ∧ t = s.setKeyBit ⟨k, hk⟩ p) ∨
    (e = .reset ∧ t = resetCore s) ∨
    (∃ bs off, e = .load bs off ∧ off + bs.length ≤ 4096 ∧ t = copyBytes s off bs) := by
  cases e with
  | step => exact Or.inl ⟨rfl, h⟩
  | tick =>
    injection h with h
    exact Or.inr (Or.inl ⟨rfl, h.symm⟩)
  | setKey k p =>
    have h1 := finish_next h
    unfold setKey at h1
    split at h1
    · rename_i hk
      injection h1 with h1
      exact Or.inr (Or.inr (Or.inl ⟨k, p, hk, rfl, h1.symm⟩))
    · cases h1
  | reset =>
    injection h with h
    exact Or.inr (Or.inr (Or.inr (Or.inl ⟨rfl, h.symm⟩)))
  | load bs off =>
    have h1 := finish_next h
    unfold load at h1
    split at h1
    · cases h1
    · injection h1 with h1
      exact Or.inr (Or.inr (Or.inr (Or.inr ⟨bs, off, rfl, by omega, h1.symm⟩)))

/-- A step is a STEP where the host lists no event, and the first event listed where it does. -/
theorem step_next {s t : State} (h : step s = .next t) :
    (s.hostEvents = [] ∧ runStep s = .next t) ∨
    ∃ e rest, s.hostEvents = e :: rest ∧ deliver e (s.setHostEvents rest) = .next t := by
  unfold step at h
  split at h
  · exact Or.inl ⟨‹_›, h⟩
  · exact Or.inr ⟨_, _, ‹_›, h⟩

/-! ## The state at power-on -/

@[simp] theorem State.powerOn_reg (p : Params) (r : Reg) : (State.powerOn p).reg r = 0 := by
  simp [State.reg, State.powerOn, Vector.get_eq_getElem]

@[simp] theorem State.powerOn_slot (p : Params) (j : Fin 16) : (State.powerOn p).slot j = 0 := by
  simp [State.slot, State.powerOn, Vector.get_eq_getElem]

@[simp] theorem State.powerOn_key (p : Params) (k : Key) : (State.powerOn p).key k = false := by
  simp [State.key, State.powerOn, Vector.get_eq_getElem]

@[simp] theorem State.powerOn_pixel (p : Params) (x : Fin 64) (y : Fin 32) : (State.powerOn p).pixel x y = false :=
  Framebuffer.pixel_blank x y

@[simp] theorem State.powerOn_byteAt (p : Params) (a : Nat) : (State.powerOn p).byteAt a = unlistedByte p a := rfl

@[simp] theorem State.powerOn_params (p : Params) : (State.powerOn p).params = p := rfl

/-- The font, wherever FONT_BASE puts it. -/
theorem unlistedByte_font (p : Params) (j : Fin 80) : unlistedByte p (p.fontBase.val + j.val) = p.fontData.get j := by
  have := j.isLt
  rw [unlistedByte, dif_pos (by omega)]
  exact congrArg p.fontData.get (Fin.ext (by simp))

/-- Every other byte, the program area among them (R5 keeps the font below 0x200). -/
theorem unlistedByte_else (p : Params) (a : Nat) (h : a < p.fontBase.val ∨ p.fontBase.val + 80 ≤ a) : unlistedByte p a = 0 :=
  dif_neg (by omega)

/-! ## What a fault depends on -/

/-- Fetch and decode read PC and memory only. -/
theorem nextInstr_congr {s t : State} (hpc : t.pc = s.pc) (hm : ∀ a, t.byteAt a = s.byteAt a) : nextInstr t = nextInstr s := by
  simp only [nextInstr, fetch, memRead16, hpc, hm]

/-- What the host issues next plays no part in them. -/
@[simp] theorem nextInstr_setHostEvents (s : State) (es : List Event) : nextInstr (s.setHostEvents es) = nextInstr s :=
  nextInstr_congr rfl fun _ => rfl

end Sys2Proof.Machine
end

