-- ==== Sys2Proof/Tests/Slice0.lean ====
section
/-! SUPPORT. The model's own tests. Expected results come from spec/95_test_vectors.md (its ids stand in the docstrings) or from the
rule named; each effect test is one step from a small state. The witnesses show states that meet the hypotheses of a statement,
clause by clause, at the ends of its ranges. -/

namespace Sys2Proof.Tests

open Sys2Proof.Machine

/-! ## Helpers -/

/-- The reset state with some registers set. -/
def withRegs (l : List (Reg × Byte)) : State := l.foldl (fun s c => s.setReg c.1 c.2) State.reset

/-- The same with I set. -/
def withIndex (i : Word) (l : List (Reg × Byte)) : State := (withRegs l).setI i

/-- Some bytes in memory. -/
def withBytes (s : State) (a : Nat) (bs : List Byte) : State := copyBytes s a bs

/-- Another value of a parameter. -/
def withParams (p : Params) (s : State) : State := { s with params := p }

def clipParams : Params := { defaultParams with drwEdge := .clip }
def flagParams : Params := { defaultParams with fx1eVf := .on }
def vyParams : Params := { defaultParams with shiftSrc := .vy }
def incParams : Params := { defaultParams with ldstI := .addXPlus1 }
def fontParams (f : Fx29Oor) : Params := { defaultParams with fx29Oor := f }
def font50Params : Params := { defaultParams with fontBase := 0x50 }

/-- One step with the opcode placed at PC. -/
def stepWord (op : Nat) (s : State) : Result := step (s.withFetchWord 16 op)

/-- What one step with the opcode placed at PC leaves. -/
def run {α : Type} (op : Nat) (s : State) (view : State → α) : Option α := (nextState? (stepWord op s)).map view

/-- Some pixels of a state, each by column and row. -/
def pixels (l : List (Fin 64 × Fin 32)) (s : State) : List Bool := l.map fun c => s.pixel c.1 c.2

/-! ## Operand ranges (spec/30_encoding.md R82) -/

theorem test_register_range : regOk 15 = true ∧ regOk 16 = false ∧ reg? 16 = none := by decide
theorem test_address_range : addrOk 4095 = true ∧ addrOk 4096 = false ∧ addr? 4096 = none := by decide
theorem test_byte_range : byteOk 255 = true ∧ byteOk 256 = false ∧ byte? 256 = none := by decide
theorem test_nibble_range : nibbleOk 15 = true ∧ nibbleOk 16 = false ∧ nibble? 16 = none := by decide
theorem test_terms_are_well_formed :
    (Instr.call 0xFFF#12).wellFormed = true ∧ (Instr.ldByte 15 0xFF#8).wellFormed = true ∧
    (Instr.drw 15 15 15#4).wellFormed = true := by decide

/-! ## Decoding: words written out from R86, most of them of 95_test_vectors.md 2.1 -/

theorem test_decode_control :
    decodeWord 0x00EE#16 = .ok .ret ∧ decodeWord 0x1ABC#16 = .ok (.jp 0xABC#12) ∧
    decodeWord 0x2ABC#16 = .ok (.call 0xABC#12) ∧ decodeWord 0x3A12#16 = .ok (.seByte 0xA 0x12#8) ∧
    decodeWord 0x4A12#16 = .ok (.sneByte 0xA 0x12#8) ∧ decodeWord 0x5AB0#16 = .ok (.seReg 0xA 0xB) ∧
    decodeWord 0x9AB0#16 = .ok (.sneReg 0xA 0xB) ∧ decodeWord 0xB123#16 = .ok (.jpV0 0x123#12) := by decide

theorem test_decode_load_alu :
    decodeWord 0x6A12#16 = .ok (.ldByte 0xA 0x12#8) ∧ decodeWord 0x7A12#16 = .ok (.addByte 0xA 0x12#8) ∧
    decodeWord 0x8AB0#16 = .ok (.ldReg 0xA 0xB) ∧ decodeWord 0x8AB1#16 = .ok (.orReg 0xA 0xB) ∧
    decodeWord 0x8AB2#16 = .ok (.andReg 0xA 0xB) ∧ decodeWord 0x8AB3#16 = .ok (.xorReg 0xA 0xB) ∧
    decodeWord 0x8AB4#16 = .ok (.addReg 0xA 0xB) ∧ decodeWord 0x8AB5#16 = .ok (.subReg 0xA 0xB) ∧
    decodeWord 0x8AB6#16 = .ok (.shr 0xA 0xB) ∧ decodeWord 0x8AB7#16 = .ok (.subnReg 0xA 0xB) ∧
    decodeWord 0x8ABE#16 = .ok (.shl 0xA 0xB) ∧ decodeWord 0xC1FF#16 = .ok (.rnd 1 0xFF#8) := by decide

theorem test_decode_index_display :
    decodeWord 0xA123#16 = .ok (.ldI 0x123#12) ∧ decodeWord 0xF11E#16 = .ok (.addI 1) ∧
    decodeWord 0xF129#16 = .ok (.ldF 1) ∧ decodeWord 0xF133#16 = .ok (.ldB 1) ∧
    decodeWord 0xF155#16 = .ok (.storeRegs 1) ∧ decodeWord 0xF165#16 = .ok (.loadRegs 1) ∧
    decodeWord 0x00E0#16 = .ok .cls ∧ decodeWord 0xD123#16 = .ok (.drw 1 2 3#4) := by decide

theorem test_decode_input_timers :
    decodeWord 0xE19E#16 = .ok (.skp 1) ∧ decodeWord 0xE1A1#16 = .ok (.sknp 1) ∧
    decodeWord 0xF107#16 = .ok (.ldVxDt 1) ∧ decodeWord 0xFF0A#16 = .ok (.ldVxK 15) ∧
    decodeWord 0xF115#16 = .ok (.ldDtVx 1) ∧ decodeWord 0xF118#16 = .ok (.ldStVx 1) := by decide

/-- The unknown words of 2.1. -/
theorem test_decode_unknown :
    [0x0000#16, 0x00E1#16, 0x0123#16, 0x00FD#16, 0x5AB1#16, 0x9ABF#16, 0x8AB8#16, 0x8ABD#16].map lookup =
      List.replicate 8 none := by decide
theorem test_decode_unknown_more :
    [0x8ABF#16, 0xE19F#16, 0xE1A0#16, 0xE000#16, 0xF000#16, 0xF075#16, 0xF130#16, 0xF1FF#16].map lookup =
      List.replicate 8 none := by decide

/-- The bytes of S9. -/
theorem test_decode_bytes : decode [0x60#8, 0x0A#8, 0x61#8] = .ok (.ldByte 0 0x0A#8, [0x61#8]) ∧
    decode [0x80#8] = .error (.truncated 1) ∧ encodeBytes (.addReg 0 1) = [0x80#8, 0x14#8] := by decide

theorem test_table_word : decodeTableWord 16 0x8AB4 = some (.addReg 0xA 0xB) ∧ decodeTableWord 16 0x8AB8 = none := by decide

/-! ## Control transfer -/

/-- CF5, CF6. -/
theorem test_ret_empty : fault? (stepWord 0x00EE State.reset) = some .stackUnderflow := by decide
theorem test_ret :
    run 0x00EE (((State.reset.setSp 2).setSlot 0 0x0206#16).setSlot 1 0x0456#16) (fun t => (t.pc, t.sp, t.slot 1)) =
      some (0x0456#16, 1#8, 0x0456#16) := by decide
/-- CF1, CF2. -/
theorem test_jp : run 0x1ABC State.reset (fun t => t.pc) = some 0x0ABC#16 := by decide
theorem test_jp_top : run 0x1FFF State.reset (fun t => t.pc) = some 0x0FFF#16 := by decide
/-- CF3, CF4. -/
theorem test_call : run 0x2300 State.reset (fun t => (t.pc, t.sp, t.slot 0)) = some (0x0300#16, 1#8, 0x0202#16) := by decide
theorem test_call_full : fault? (stepWord 0x2300 (State.reset.setSp 16)) = some .stackOverflow := by decide
/-- CF7, CF8. -/
theorem test_se_taken : run 0x332A (withRegs [(3, 0x2A)]) (fun t => t.pc) = some 0x0204#16 := by decide
theorem test_se_untaken : run 0x332A (withRegs [(3, 0x2B)]) (fun t => t.pc) = some 0x0202#16 := by decide
/-- CF9, CF10. -/
theorem test_sne_taken : run 0x432A (withRegs [(3, 0x2B)]) (fun t => t.pc) = some 0x0204#16 := by decide
theorem test_sne_untaken : run 0x432A (withRegs [(3, 0x2A)]) (fun t => t.pc) = some 0x0202#16 := by decide
/-- CF11; R105. -/
theorem test_se_same : run 0x5110 (withRegs [(1, 0x77)]) (fun t => t.pc) = some 0x0204#16 := by decide
theorem test_se_reg : run 0x5120 (withRegs [(1, 7), (2, 8)]) (fun t => t.pc) = some 0x0202#16 := by decide
/-- CF12, CF13. -/
theorem test_sne_same : run 0x9110 (withRegs [(1, 0x77)]) (fun t => t.pc) = some 0x0202#16 := by decide
theorem test_sne_reg : run 0x9120 (withRegs [(1, 7), (2, 8)]) (fun t => t.pc) = some 0x0204#16 := by decide
/-- CF14, CF15. -/
theorem test_jp_v0 : run 0xB300 (withRegs [(0, 0x04), (3, 0x99)]) (fun t => t.pc) = some 0x0304#16 := by decide
theorem test_jp_v0_top : run 0xBFFF (withRegs [(0, 0xFF)]) (fun t => t.pc) = some 0x10FE#16 := by decide
/-- CF16, CF18. -/
theorem test_skip_past_memory : run 0x3000 (State.reset.setPc 0x0FFE#16) (fun t => t.pc) = some 0x1002#16 := by decide
theorem test_odd_pc : run 0x1234 (State.reset.setPc 0x0201#16) (fun t => t.pc) = some 0x0234#16 := by decide

/-! ## Load, arithmetic, logic, random -/

/-- A1. -/
theorem test_ld_byte : run 0x6A12 State.reset (fun t => (t.reg 0xA, t.pc)) = some (0x12#8, 0x0202#16) := by decide
/-- A2, A4. -/
theorem test_add_byte : run 0x7102 (withRegs [(1, 0xFF)]) (fun t => (t.reg 1, t.reg 0xF)) = some (0x01#8, 0x00#8) := by decide
theorem test_add_byte_vf : run 0x7F20 (withRegs [(0xF, 0xF0)]) (fun t => t.reg 0xF) = some 0x10#8 := by decide
/-- A5. -/
theorem test_ld_reg : run 0x8120 (withRegs [(2, 0x33)]) (fun t => (t.reg 1, t.reg 2)) = some (0x33#8, 0x33#8) := by decide
/-- A6, A7, A8. -/
theorem test_or :
    run 0x8121 (withRegs [(1, 0x0F), (2, 0xF0), (0xF, 1)]) (fun t => (t.reg 1, t.reg 0xF)) = some (0xFF#8, 0x01#8) := by decide
theorem test_and : run 0x8122 (withRegs [(1, 0x3C), (2, 0x0F)]) (fun t => t.reg 1) = some 0x0C#8 := by decide
theorem test_xor : run 0x8123 (withRegs [(1, 0xFF), (2, 0x0F)]) (fun t => t.reg 1) = some 0xF0#8 := by decide
/-- A10, A12. -/
theorem test_add : run 0x8124 (withRegs [(1, 0xFF), (2, 1)]) (fun t => (t.reg 1, t.reg 0xF)) = some (0x00#8, 0x01#8) := by decide
theorem test_add_vf : run 0x8F14 (withRegs [(0xF, 0x80), (1, 0x90)]) (fun t => t.reg 0xF) = some 0x01#8 := by decide
/-- A16, A17. -/
theorem test_sub : run 0x8125 (withRegs [(1, 3), (2, 5)]) (fun t => (t.reg 1, t.reg 0xF)) = some (0xFE#8, 0x00#8) := by decide
theorem test_sub_equal : run 0x8125 (withRegs [(1, 7), (2, 7)]) (fun t => (t.reg 1, t.reg 0xF)) = some (0x00#8, 0x01#8) := by decide
/-- A23, A24. -/
theorem test_shr :
    run 0x8126 (withRegs [(1, 0xFF), (2, 4)]) (fun t => (t.reg 1, t.reg 2, t.reg 0xF)) = some (0x7F#8, 0x04#8, 0x01#8) := by decide
theorem test_shr_vy :
    run 0x8126 (withParams vyParams (withRegs [(1, 0xFF), (2, 4)])) (fun t => (t.reg 1, t.reg 0xF)) = some (0x02#8, 0x00#8) := by decide
/-- A26, A27. -/
theorem test_subn : run 0x8127 (withRegs [(1, 3), (2, 5)]) (fun t => (t.reg 1, t.reg 0xF)) = some (0x02#8, 0x01#8) := by decide
theorem test_subn_borrow : run 0x8127 (withRegs [(1, 5), (2, 3)]) (fun t => (t.reg 1, t.reg 0xF)) = some (0xFE#8, 0x00#8) := by decide
/-- A29, A32. -/
theorem test_shl : run 0x810E (withRegs [(1, 0x81)]) (fun t => (t.reg 1, t.reg 0xF)) = some (0x02#8, 0x01#8) := by decide
theorem test_shl_vy :
    run 0x812E (withParams vyParams (withRegs [(1, 0xFF), (2, 4)])) (fun t => (t.reg 1, t.reg 0xF)) = some (0x08#8, 0x00#8) := by decide
/-- A34: whatever the draw. -/
theorem test_rnd_zero : ∃ t, exec (.rnd 3 0x00#8) State.reset = .next t ∧ t.reg 3 = 0x00#8 ∧ t.pc = 0x0202#16 :=
  ⟨_, rfl, BitVec.and_zero, rfl⟩
theorem test_rnd_runs : run 0xC30F State.reset (fun t => (t.pc, t.draws)) = some (0x0202#16, 1) := by decide

/-! ## Index register and memory -/

/-- M1. -/
theorem test_ld_i : run 0xA300 State.reset (fun t => t.i) = some 0x0300#16 := by decide
/-- M3 under `on`, M5. -/
theorem test_add_i_flag :
    run 0xF21E (withParams flagParams (withIndex 0x0FFF#16 [(2, 1)])) (fun t => (t.i, t.reg 0xF)) = some (0x1000#16, 0x01#8) := by decide
theorem test_add_i_wraps : run 0xF21E (withIndex 0xFFFF#16 [(2, 1)]) (fun t => (t.i, t.reg 0xF)) = some (0x0000#16, 0x00#8) := by decide
/-- M7, M9 (the core of State.reset refuses, by the default of R5), and a core built with free, which runs it (log entry 2). -/
theorem test_ld_f : run 0xF429 (withParams font50Params (withRegs [(4, 0x0A)])) (fun t => t.i) = some 0x0082#16 := by decide
theorem test_ld_f_above :
    run 0xF429 (withParams (fontParams .mask) (withRegs [(4, 0x1A)])) (fun t => t.i) = some 0x0032#16 ∧
    run 0xF429 (withParams (fontParams .linear) (withRegs [(4, 0x1A)])) (fun t => t.i) = some 0x0082#16 ∧
    refusal? (stepWord 0xF429 (withRegs [(4, 0x1A)])) = some .fontDigitOutOfRange ∧
    run 0xF429 (withParams (fontParams .free) (withRegs [(4, 0x1A)])) (fun t => (t.pc, t.draws)) = some (0x0202#16, 1) := by decide
/-- M10, M14. -/
theorem test_ld_b :
    run 0xF033 (withIndex 0x0300#16 [(0, 0xEA)]) (fun t => ([0x300, 0x301, 0x302].map t.byteAt, t.i)) =
      some ([0x02#8, 0x03#8, 0x04#8], 0x0300#16) := by decide
theorem test_ld_b_out : fault? (stepWord 0xF033 (withIndex 0x0FFE#16 [(0, 0x64)])) = some .outOfBounds := by decide
/-- M16, M18. -/
theorem test_store :
    run 0xF255 (withParams incParams (withIndex 0x0400#16 [(0, 1), (1, 2), (2, 3), (3, 4)]))
      (fun t => ([0x400, 0x401, 0x402, 0x403].map t.byteAt, t.i)) = some ([1#8, 2#8, 3#8, 0#8], 0x0403#16) := by decide
theorem test_store_out : fault? (stepWord 0xF255 (withIndex 0x0FFE#16 [(0, 1)])) = some .outOfBounds := by decide
/-- M20, M22. -/
theorem test_load :
    run 0xF265 (withBytes (withIndex 0x0300#16 [(3, 0x77)]) 0x300 [2, 3, 4, 5]) (fun t => ([0, 1, 2, 3].map t.reg, t.i)) =
      some ([2#8, 3#8, 4#8, 0x77#8], 0x0300#16) := by decide
theorem test_load_out : fault? (stepWord 0xF865 (withIndex 0x0FF8#16 [])) = some .outOfBounds := by decide

/-! ## Display -/

/-- DR1. -/
theorem test_cls :
    run 0x00E0 ((withRegs [(0xF, 1)]).setFb (State.reset.fb.flip 5 6)) (fun t => (pixels [(5, 6), (0, 0)] t, t.reg 0xF)) =
      some ([false, false], 0x01#8) := by decide
/-- DR5 in both modes: the four pixels that are on under wrap, then two that are off. -/
theorem test_drw_wrap :
    run 0xD012 (withBytes (withIndex 0x0300#16 [(0, 62), (1, 31)]) 0x300 [0xC0, 0x81])
      (fun t => (pixels [(5, 0), (62, 0), (62, 31), (63, 31), (0, 31), (4, 0)] t, t.reg 0xF)) =
      some ([true, true, true, true, false, false], 0x00#8) := by decide
theorem test_drw_clip :
    run 0xD012 (withParams clipParams (withBytes (withIndex 0x0300#16 [(0, 62), (1, 31)]) 0x300 [0xC0, 0x81]))
      (fun t => (pixels [(5, 0), (62, 0), (62, 31), (63, 31), (0, 31), (4, 0)] t, t.reg 0xF)) =
      some ([false, false, true, true, false, false], 0x00#8) := by decide

/-! ## Input and timers -/

/-- IO1, IO5. -/
theorem test_skp : run 0xE59E ((withRegs [(5, 7)]).setKeyBit 7 true) (fun t => t.pc) = some 0x0204#16 := by decide
theorem test_skp_invalid : fault? (stepWord 0xE59E (withRegs [(5, 0x10)])) = some .invalidKey := by decide
/-- IO3, IO4. -/
theorem test_sknp : run 0xE5A1 (withRegs [(5, 7)]) (fun t => t.pc) = some 0x0204#16 := by decide
theorem test_sknp_pressed : run 0xE5A1 ((withRegs [(5, 7)]).setKeyBit 7 true) (fun t => t.pc) = some 0x0202#16 := by decide
/-- IO10, IO11, IO12. -/
theorem test_ld_vx_dt : run 0xF107 (State.reset.setDt 0x3C) (fun t => (t.reg 1, t.dt)) = some (0x3C#8, 0x3C#8) := by decide
theorem test_ld_dt_vx : run 0xF015 (withRegs [(0, 0x3C)]) (fun t => (t.dt, t.st)) = some (0x3C#8, 0x00#8) := by decide
theorem test_ld_st_vx : run 0xF018 (withRegs [(0, 5)]) (fun t => (t.st, t.dt, t.soundActive)) = some (0x05#8, 0x00#8, true) := by decide
/-- IO7, IO8. -/
theorem test_ld_vx_k_waits : run 0xF20A State.reset (fun t => (t.pc, t.reg 2)) = some (0x0200#16, 0x00#8) ∧
    stepResult (State.reset.withFetchWord 16 0xF20A) = .ok ⟨false, false, true⟩ := by decide
theorem test_ld_vx_k :
    run 0xF20A ((State.reset.setKeyBit 7 true).setKeyBit 9 true) (fun t => (t.reg 2, t.pc)) = some (0x07#8, 0x0202#16) := by decide

/-! ## Events of the host, and what the host sees -/

/-- IO13, IO14. -/
theorem test_tick : (tick (State.reset.setDt 2)).dt = 1 ∧ (tick (State.reset.setDt 2)).st = 0 := by decide
theorem test_tick_sound : (tick (State.reset.setSt 1)).st = 0 ∧ (tick (State.reset.setSt 1)).soundActive = false := by decide
/-- IO17, IO18. -/
theorem test_set_key : (nextState? (deliver (.setKey 3 true) State.reset)).map (fun t => (t.key 3, t.key 4)) = some (true, false) := by decide
theorem test_set_key_invalid : fault? (deliver (.setKey 16 true) State.reset) = some .invalidKey := by decide
/-- RL1. -/
theorem test_reset_event :
    (nextState? (deliver .reset (((State.reset.setKeyBit 4 true).setReg 1 9).setByte 0 7))).map
      (fun t => (t.key 4, t.reg 1, t.byteAt 0, t.pc)) = some (true, 0x00#8, 0xF0#8, 0x0200#16) := by decide
/-- RL5. -/
theorem test_load_bounds :
    (nextState? (deliver (.load [0xAB] 4095) State.reset)).map (fun t => t.byteAt 4095) = some 0xAB#8 ∧
    fault? (deliver (.load [0xAB] 4096) State.reset) = some .outOfBounds ∧
    (nextState? (deliver (.load [] 4096) State.reset)).map (fun t => t.mem) = some [] := by decide
/-- The first instruction of S9, booted at 0x200 from any state; a jump to itself is an end (R249). -/
theorem test_boot :
    (nextState? (step (boot [0x60, 0x0A, 0x61, 0x0B, 0x80, 0x14] (withRegs [(3, 7)])))).map (fun t => (t.reg 0, t.reg 3, t.pc)) =
      some (0x0A#8, 0x00#8, 0x0202#16) := by decide
theorem test_at_end : AtEnd (boot [0x12, 0x00] State.reset) := ⟨0x200#12, by decide, by decide⟩
/-- An event the host lists first comes first (log entry 5). -/
theorem test_listed_event : (nextState? (step ((State.reset.setDt 2).setHostEvents [.tick, .step]))).map
    (fun t => (t.dt, t.hostEvents)) = some (1#8, [.step]) := by decide
/-- R206. -/
theorem test_register_file : regFileGet (withRegs [(15, 9)]) 15 = .ok 9#8 ∧ regFileGet State.reset 16 = .error .invalidRegister := by decide
/-- The spelling of R89 for a word of 2.1. -/
theorem test_asm_text : asmText (.drw 1 2 3#4) = "DRW V1,V2,3" ∧ asmText (.ldI 0x123#12) = "LD I,0x123" := by decide
/-- Writing the reset contents back lists nothing. -/
theorem test_memory_canonical : ((State.reset.setByte 0 0x12).setByte 0 0xF0).mem = [] ∧
    ((State.reset.setByte 0x300 1).setByte 0x200 2).mem = [(0x200, 2#8), (0x300, 1#8)] := by decide

/-! ## Witnesses: the hypotheses of the statements can be met -/

theorem witness_DecodeOfEncode : (Instr.drw 15 0 15#4).wellFormed = true ∧ Instr.cls.wellFormed = true := by decide

theorem witness_EncodeOfDecode : decodeWord 0xFF65#16 = .ok (.loadRegs 15) := by decide

theorem witness_DecodingFollowsTheOpcodeMap :
    (∃ r ∈ opcodeTable, 0x1FFF#16 &&& r.mask = r.bits) ∧ ∀ i, decodeWord 0x0000#16 ≠ .ok i := by
  refine ⟨by decide, fun i h => ?_⟩
  have h0 : decodeWord 0x0000#16 = .error (.unknownInstruction 0x0000#16) := by decide
  rw [h0] at h
  cases h

/-- An instruction in the last place it can be fetched from. -/
def lastPlace : State := (State.reset.setPc 0xFFE#16).withFetchWord 16 0x3A12

theorem witness_StepRunsTheDecodedInstruction :
    lastPlace.pc.toNat ≤ 0xFFE ∧ lastPlace.hostEvents = [] ∧ (lastPlace.setHostEvents [.step, .tick]).hostEvents = [.step, .tick] ∧
    decodeWord (lastPlace.byteAt lastPlace.pc.toNat ++ lastPlace.byteAt (lastPlace.pc.toNat + 1)) = .ok (.seByte 0xA 0x12#8) := by decide

theorem witness_FetchFaultsAboveFFE :
    (State.reset.setPc 0xFFF#16).hostEvents = [] ∧ 0xFFE < (State.reset.setPc 0xFFF#16).pc.toNat ∧
    (State.reset.setPc 0xFFE#16).pc.toNat ≤ 0xFFE := by decide

theorem witness_UnknownInstruction :
    State.reset.hostEvents = [] ∧ State.reset.pc.toNat ≤ 0xFFE ∧
    ∀ r ∈ opcodeTable, (State.reset.byteAt State.reset.pc.toNat ++ State.reset.byteAt (State.reset.pc.toNat + 1) : Word) &&& r.mask ≠ r.bits := by
  decide

theorem witness_PlacedWordRunsNext : decodeTableWord 16 0xD123 = some (.drw 1 2 3#4) := by decide

theorem witness_MemoryPrimitives :
    memRead8 State.reset 4095 = .ok 0#8 ∧ memRead8 State.reset 4096 = .error .outOfBounds ∧
    memRead16 State.reset 4094 = .ok 0#16 ∧ memRead16 State.reset 4095 = .error .outOfBounds ∧
    (∃ t, memWrite8 State.reset 4095 7 = .ok t ∧ t.byteAt 4095 = 7) ∧ fault? (finish (memWrite8 State.reset 4096 7)) = some .outOfBounds :=
  ⟨by decide, by decide, by decide, by decide, ⟨_, rfl, by decide⟩, by decide⟩

theorem witness_StoreIsSeen :
    (∃ t, memWrite8 State.reset 0x200 7 = .ok t ∧ t.pc.toNat ≤ 0xFFE ∧ 0x200 = t.pc.toNat) ∧
    (∃ t, memWrite8 State.reset 0x201 7 = .ok t ∧ t.pc.toNat ≤ 0xFFE ∧ 0x201 = t.pc.toNat + 1) ∧
    (∃ t, memWrite8 State.reset 0x300 7 = .ok t ∧ t.pc.toNat ≤ 0xFFE ∧ 0x300 ≠ t.pc.toNat ∧ 0x300 ≠ t.pc.toNat + 1) :=
  ⟨⟨_, rfl, by decide, rfl⟩, ⟨_, rfl, by decide, rfl⟩, ⟨_, rfl, by decide, by decide, by decide⟩⟩

theorem witness_Call_and_Ret :
    (State.reset.setSp 0).sp.toNat = (0 : Fin 16).val ∧ (State.reset.setSp 15).sp.toNat = (15 : Fin 16).val ∧
    (State.reset.setSp 16).sp.toNat = 16 ∧ (State.reset.setSp 1).sp.toNat = (0 : Fin 16).val + 1 ∧
    (State.reset.setSp 16).sp.toNat = (15 : Fin 16).val + 1 ∧ State.reset.sp.toNat = 0 ∧ (State.reset.setSp 15).sp.toNat < 16 := by decide

theorem witness_Skips :
    (withRegs [(3, 0x2A)]).reg 3 = 0x2A#8 ∧ (withRegs [(3, 0x2A)]).reg 3 ≠ 0x2B#8 ∧
    (withRegs [(1, 7), (2, 7)]).reg 1 = (withRegs [(1, 7), (2, 7)]).reg 2 ∧
    (withRegs [(1, 7), (2, 8)]).reg 1 ≠ (withRegs [(1, 7), (2, 8)]).reg 2 ∧ (0xF#4 : Nibble) ≠ 0 := by decide

/-- A destination that is not VF; the sum at the two sides of the carry. -/
theorem witness_AddSetsCarry :
    (0xE : Reg) ≠ 0xF ∧ 255 < ((withRegs [(1, 0xFF), (2, 1)]).reg 1).toNat + ((withRegs [(1, 0xFF), (2, 1)]).reg 2).toNat ∧
    ¬ 255 < ((withRegs [(1, 0xFF)]).reg 1).toNat + ((withRegs [(1, 0xFF)]).reg 2).toNat := by decide

theorem witness_Subtractions :
    (0 : Reg) ≠ 0xF ∧ ((withRegs [(1, 7), (2, 7)]).reg 2).toNat ≤ ((withRegs [(1, 7), (2, 7)]).reg 1).toNat ∧
    ¬ ((withRegs [(1, 7), (2, 8)]).reg 2).toNat ≤ ((withRegs [(1, 7), (2, 8)]).reg 1).toNat := by decide

/-- The premises on the numbers in FlagWriteIsLast, with VF as destination and as second operand. -/
theorem witness_FlagWriteIsLast :
    (0x80 : Nat) = ((withRegs [(0xF, 0x80), (1, 0x90)]).reg 0xF).toNat ∧ (0x90 : Nat) = ((withRegs [(0xF, 0x80), (1, 0x90)]).reg 1).toNat ∧
    State.reset.params.shiftSrc = .vx ∧ (withParams vyParams State.reset).params.shiftSrc = .vy := by decide

theorem witness_Shifts :
    (State.reset.params.shiftSrc = .vx ∧ (0#8 : Byte) = State.reset.reg 1) ∧
    ((withParams vyParams State.reset).params.shiftSrc = .vy ∧ (0#8 : Byte) = (withParams vyParams State.reset).reg 2) := by decide

theorem witness_FlagValues :
    (∃ t, exec (.addReg 1 2) State.reset = .next t) ∧ (∃ t, exec (.subReg 1 2) State.reset = .next t) ∧
    (∃ t, exec (.subnReg 1 2) State.reset = .next t) ∧ (∃ t, exec (.shr 1 2) State.reset = .next t) ∧
    (∃ t, exec (.shl 1 2) State.reset = .next t) ∧ (∃ t, exec (.drw 1 2 0#4) State.reset = .next t) ∧
    (withParams flagParams State.reset).params.fx1eVf = .on ∧ ∃ t, exec (.addI 1) (withParams flagParams State.reset) = .next t :=
  ⟨⟨_, rfl⟩, ⟨_, rfl⟩, ⟨_, rfl⟩, ⟨_, rfl⟩, ⟨_, rfl⟩, ⟨_, rfl⟩, rfl, ⟨_, rfl⟩⟩

theorem witness_RandomBits : (0xF0#8 : Byte).getLsbD 3 = false := by decide

theorem witness_AddIndex :
    State.reset.params.fx1eVf = .off ∧ (withParams flagParams State.reset).params.fx1eVf = .on := by decide

theorem witness_FontDigit : ((withRegs [(4, 0x0F)]).reg 4).toNat ≤ 0xF ∧ 0xF < ((withRegs [(4, 0x10)]).reg 4).toNat := by decide

theorem witness_FontDigitOutOfRange :
    State.reset.params.fx29Oor = .refuse ∧
    (withParams (fontParams .mask) State.reset).params.fx29Oor = .mask ∧
    (withParams (fontParams .linear) State.reset).params.fx29Oor = .linear ∧
    (withParams (fontParams .free) State.reset).params.fx29Oor = .free := by decide

/-- I at the last place that works, and one above it: three digits, V0 to VF. -/
theorem witness_StoresAndLoads :
    (withIndex 0x0FFD#16 []).i.toNat + 2 ≤ 4095 ∧ 4095 < (withIndex 0x0FFE#16 []).i.toNat + 2 ∧
    (withIndex 0x0FF0#16 []).i.toNat + (15 : Reg).val ≤ 4095 ∧ 4095 < (withIndex 0x0FF1#16 []).i.toNat + (15 : Reg).val ∧
    State.reset.params.ldstI = .unchanged ∧ (withParams incParams State.reset).params.ldstI = .addXPlus1 := by decide

/-- I may have moved in between: it is set back. -/
theorem witness_LoadAfterStore :
    ∃ t, exec (.storeRegs 2) (withParams incParams (withIndex 0x0400#16 [(0, 1)])) = .next t ∧
      KeepsMemory t (t.setI 0x0400#16) ∧ (t.setI 0x0400#16).i = (withParams incParams (withIndex 0x0400#16 [(0, 1)])).i :=
  ⟨_, rfl, fun _ => rfl, rfl⟩

/-- No rows at an index outside MEM; one row at the last byte; two rows there. -/
theorem witness_Drw :
    State.reset.params.drwEdge = .wrap ∧ (withParams clipParams State.reset).params.drwEdge = .clip ∧ (0#4 : Nibble).toNat = 0 ∧
    (withIndex 0x0FFF#16 []).i.toNat + (1#4 : Nibble).toNat - 1 ≤ 4095 ∧ 1 ≤ (2#4 : Nibble).toNat ∧
    4095 < (withIndex 0x0FFF#16 []).i.toNat + (2#4 : Nibble).toNat - 1 := by decide

theorem witness_DrawingTwice : ∃ t, exec (.drw 1 2 5#4) State.reset = .next t ∧ t.reg 1 = State.reset.reg 1 ∧ t.reg 2 = State.reset.reg 2 :=
  ⟨_, rfl, rfl, rfl⟩

theorem witness_KeySkips :
    ((withRegs [(5, 15)]).reg 5).toNat = (15 : Key).val ∧ 15 < ((withRegs [(5, 16)]).reg 5).toNat := by decide

theorem witness_WaitForKey :
    (State.reset.setKeyBit 15 true).key 15 = true ∧ (∀ j : Key, j < 15 → (State.reset.setKeyBit 15 true).key j = false) ∧
    ∀ k : Key, State.reset.key k = false := by decide

theorem witness_ListedEvents : (State.reset.setHostEvents [.tick, .step]).hostEvents = .tick :: [.step] := by decide

theorem witness_Tick :
    0 < (State.reset.setDt 1).dt.toNat ∧ State.reset.dt.toNat = 0 ∧ 0 < (State.reset.setSt 1).st.toNat ∧ State.reset.st.toNat = 0 := by
  decide

theorem witness_SetKey :
    (15 : Nat) = (15 : Key).val ∧ (15 : Nat) < 16 ∧ (∀ m q, Event.tick ≠ .setKey m q) ∧ ∃ t, deliver .tick State.reset = .next t :=
  ⟨by decide, by decide, by simp, ⟨_, rfl⟩⟩

/-- RL3, RL4. -/
theorem witness_Load :
    0x200 + (List.replicate 3584 (0xAB#8 : Byte)).length ≤ 4096 ∧ 4096 < 0x200 + (List.replicate 3585 (0xAB#8 : Byte)).length := by
  rw [List.length_replicate, List.length_replicate]
  omega

theorem witness_ResetEvent :
    0x4F < (withParams font50Params State.reset).params.fontBase.val ∧
    (withParams font50Params State.reset).params.fontBase.val + 80 ≤ 0xA0 := by decide

theorem witness_Summary :
    nextInstr (State.reset.withFetchWord 16 0x00E0) = .ok .cls ∧ ∃ t, exec .cls (State.reset.withFetchWord 16 0x00E0) = .next t :=
  ⟨by decide, ⟨_, rfl⟩⟩

/-- A fault that is not of fetch or decode, in two states that differ in timers, keys and display. -/
theorem witness_FaultComesAgain :
    stepResult ((State.reset.setSp 16).withFetchWord 16 0x2300) = .err .stackOverflow ∧
    (let s := (State.reset.setSp 16).withFetchWord 16 0x2300
     let t := ((s.setDt 5).setKeyBit 3 true).setFb (s.fb.flip 0 0)
     t.pc = s.pc ∧ t.sp = s.sp ∧ t.i = s.i ∧ t.reg = s.reg ∧ t.byteAt = s.byteAt ∧ t.dt ≠ s.dt) ∧
    ∀ e ∈ ([.tick, .step, .setKey 3 true] : List Event), e = .tick ∨ e = .step ∨ ∃ k p, e = .setKey k p :=
  ⟨by decide, ⟨rfl, rfl, rfl, rfl, rfl, by decide⟩, by simp⟩

theorem witness_Invariant :
    (State.reset.withFetchWord 16 0x2300).Inv ∧ ∃ t, step (State.reset.withFetchWord 16 0x2300) = .next t :=
  ⟨⟨by decide, by decide, by decide, by decide⟩, ⟨_, rfl⟩⟩

/-- The core of State.reset at the instruction it refuses, and at one it does not. -/
theorem witness_Refusals :
    (let s := (withRegs [(4, 0x10)]).withFetchWord 16 0xF429
     s.Inv ∧ s.hostEvents = [] ∧ s.params.fx29Oor = .refuse ∧ nextInstr s = .ok (.ldF 4) ∧ 0xF < (s.reg 4).toNat ∧
       step s = .refused .fontDigitOutOfRange) ∧
    ∃ t, step ((withRegs [(4, 0x0F)]).withFetchWord 16 0xF429) = .next t :=
  ⟨⟨⟨by decide, by decide, by decide, by decide⟩, rfl, rfl, by decide, by decide, rfl⟩, ⟨_, rfl⟩⟩

/-- The faulting clauses say what the STEP leaves: the instruction stands at PC. -/
theorem witness_FaultingSteps :
    nextInstr ((State.reset.setSp 16).withFetchWord 16 0x2300) = .ok (.call 0x300#12) ∧
    nextInstr (State.reset.withFetchWord 16 0x00EE) = .ok .ret ∧
    nextInstr ((withIndex 0x0FFE#16 []).withFetchWord 16 0xF033) = .ok (.ldB 0) ∧
    nextInstr ((withIndex 0x0FF1#16 []).withFetchWord 16 0xFF55) = .ok (.storeRegs 15) ∧
    nextInstr ((withIndex 0x0FF1#16 []).withFetchWord 16 0xFF65) = .ok (.loadRegs 15) ∧
    nextInstr ((withIndex 0x0FFF#16 []).withFetchWord 16 0xD012) = .ok (.drw 0 1 2#4) := by decide

/-- Each fault of R207 at the first value that raises it. -/
theorem witness_FaultsOfEveryInstruction :
    fault? (exec .ret State.reset) = some .stackUnderflow ∧
    fault? (exec (.call 0x300#12) (State.reset.setSp 16)) = some .stackOverflow ∧
    fault? (exec (.drw 1 2 1#4) (withIndex 0x1000#16 [])) = some .outOfBounds ∧
    fault? (exec (.ldB 1) (withIndex 0x0FFE#16 [])) = some .outOfBounds ∧
    fault? (exec (.storeRegs 1) (withIndex 0x0FFF#16 [])) = some .outOfBounds ∧
    fault? (exec (.loadRegs 0) (withIndex 0x1000#16 [])) = some .outOfBounds ∧
    fault? (exec (.sknp 1) (withRegs [(1, 16)])) = some .invalidKey := by decide

/-- An instruction that completes and is none of those the whole-machine rules except. -/
theorem witness_WholeMachineRules :
    (∃ t, exec (.ldByte 1 2#8) State.reset = .next t) ∧ Instr.ldByte 1 2#8 ≠ .cls ∧
    (∀ x y n, Instr.ldByte 1 2#8 ≠ .drw x y n) ∧ ∀ x, Instr.ldByte 1 2#8 ≠ .ldB x ∧ Instr.ldByte 1 2#8 ≠ .storeRegs x :=
  ⟨⟨_, rfl⟩, by simp, by simp, by simp⟩

/-- The premises of the four clauses of WritersOfIndexStackAndTimers. -/
theorem witness_Writers :
    (∃ t, exec (.ldI 0x300#12) State.reset = .next t ∧ t.i ≠ State.reset.i) ∧
    (∃ t, exec (.call 0x300#12) State.reset = .next t ∧ ¬KeepsStack State.reset t) ∧
    (∃ t, exec (.ldDtVx 1) (withRegs [(1, 5)]) = .next t ∧ t.dt ≠ (withRegs [(1, 5)]).dt) ∧
    (∃ t, exec (.ldStVx 1) (withRegs [(1, 5)]) = .next t ∧ t.st ≠ (withRegs [(1, 5)]).st) :=
  ⟨⟨_, rfl, by decide⟩, ⟨_, rfl, fun h => absurd h.1 (by decide)⟩, ⟨_, rfl, by decide⟩, ⟨_, rfl, by decide⟩⟩

end Sys2Proof.Tests
end

section
/-! The host's list of events: what a step does with its first event, and what a TICK leaves. -/

namespace Sys2Proof.Machine

/-! ## A step with a listed event -/

/-- R6, log entry 5. -/
theorem step_of_hostEvents_cons {s : State} {e : Event} {rest : List Event} (h : s.hostEvents = e :: rest) :
    step s = deliver e (s.setHostEvents rest) := by
  simp only [step, h]

/-! ## TICK (R216) -/

@[simp] theorem deliver_tick (s : State) : deliver .tick s = .next (tick s) := rfl

@[simp] theorem tick_hostEvents (s : State) : (tick s).hostEvents = s.hostEvents := rfl

@[simp] theorem tick_pc (s : State) : (tick s).pc = s.pc := rfl

@[simp] theorem tick_dt_toNat (s : State) : (tick s).dt.toNat = s.dt.toNat - 1 := countDown_toNat s.dt

/-! ## The statement -/

/-- Settles O42: a step with a listed event is that event's delivery, and for a TICK the next state is `tick` of the state with
the rest listed. -/
theorem listedEventsHappenInOrder : Obligations.ListedEventsHappenInOrder := by
  intro s e rest h
  have hstep := step_of_hostEvents_cons h
  refine ⟨hstep, ?_⟩
  rintro rfl
  exact ⟨tick (s.setHostEvents rest), hstep, by simp, by simp, by simp⟩

end Sys2Proof.Machine
end

section
/-! What an instruction that completes leaves: the inversion of each meaning that can fail or branch, the table of the pieces of state
each instruction writes, and that it keeps all the others. -/

namespace Sys2Proof.Machine

/-! ## Inversion of the meanings that can stop -/

/-- An outcome guarded by a fault, when it is a next state. -/
theorem next_of_ite_fault {c : Prop} [Decidable c] {u t : State} {f : Fault}
    (h : (if c then .next u else .fault f : Result) = .next t) : c ∧ t = u := by
  split at h
  · exact ⟨‹c›, (Host.Outcome.next.inj h).symm⟩
  · cases h

/-- R100: a RET that completes found 1 to 16 entries, and took the top one. -/
theorem execRet_next {s t : State} (h : execRet s = .next t) :
    ∃ j : Fin 16, s.sp.toNat = j.val + 1 ∧ t = (s.setSp (s.sp - 1)).setPc (s.slot j) := by
  by_cases h0 : s.sp = 0
  · cases (popIntoPc_empty s h0).symm.trans h
  have hpos : 0 < s.sp.toNat := Nat.pos_of_ne_zero fun hc => h0 (BitVec.eq_of_toNat_eq hc)
  by_cases h16 : s.sp.toNat - 1 < 16
  · have hj : s.sp.toNat = (⟨s.sp.toNat - 1, h16⟩ : Fin 16).val + 1 := by simp only; omega
    exact ⟨_, hj, Host.Outcome.next.inj (h.symm.trans (popIntoPc_ok s _ hj))⟩
  · rw [execRet, popIntoPc, if_neg h0, top?, dif_neg h16] at h
    cases h

/-- R102: a CALL that completes found a free slot. -/
theorem execCall_next {nnn : Addr} {s t : State} (h : execCall nnn s = .next t) :
    ∃ hs : s.sp.toNat < 16,
      t = ((s.setSlot ⟨s.sp.toNat, hs⟩ (s.pc + 2)).setSp (s.sp + 1)).setPc (addrWord nnn) := by
  by_cases hs : s.sp.toNat < 16
  · rw [execCall, push_ok s _ hs] at h
    exact ⟨hs, (Host.Outcome.next.inj h).symm⟩
  · rw [execCall, push_full s _ (by omega)] at h
    cases h

/-- R152: ADD I writes I, PC and the registers at most. -/
theorem execAddI_next {x : Reg} {s t : State} (h : execAddI x s = .next t) :
    ∃ v i, t = { s with v := v, i := i, pc := s.pc + 2 } := by
  cases hp : s.params.fx1eVf with
  | off => rw [execAddI_off x s hp] at h; exact ⟨_, _, (Host.Outcome.next.inj h).symm⟩
  | on => rw [execAddI_on x s hp] at h; exact ⟨_, _, (Host.Outcome.next.inj h).symm⟩

/-- R154: an LD F that completes writes I, PC and the count of draws at most. -/
theorem execLdF_next {x : Reg} {s t : State} (h : execLdF x s = .next t) :
    ∃ i n, t = { s with i := i, draws := n, pc := s.pc + 2 } := by
  by_cases hd : (s.reg x).toNat ≤ 0xF
  · rw [execLdF_digit x s hd] at h
    exact ⟨_, _, (Host.Outcome.next.inj h).symm⟩
  · rw [execLdF_above x s (by omega)] at h
    cases hp : s.params.fx29Oor <;> rw [hp] at h
    case refuse => cases h
    all_goals exact ⟨_, _, (Host.Outcome.next.inj h).symm⟩

/-- R185, R188: a SKP that completes has a key's number in Vx. -/
theorem execSkp_next {x : Reg} {s t : State} (h : execSkp x s = .next t) :
    ∃ hk : (s.reg x).toNat < 16, t = s.skipIf (s.key ⟨_, hk⟩) := by
  by_cases hk : (s.reg x).toNat < 16
  · rw [execSkp, keyOf_ok _ hk] at h
    exact ⟨hk, (Host.Outcome.next.inj h).symm⟩
  · rw [execSkp, keyOf_out _ (by omega)] at h
    cases h

/-- R186, R188: the same of SKNP. -/
theorem execSknp_next {x : Reg} {s t : State} (h : execSknp x s = .next t) :
    ∃ hk : (s.reg x).toNat < 16, t = s.skipIf (!s.key ⟨_, hk⟩) := by
  by_cases hk : (s.reg x).toNat < 16
  · rw [execSknp, keyOf_ok _ hk] at h
    exact ⟨hk, (Host.Outcome.next.inj h).symm⟩
  · rw [execSknp, keyOf_out _ (by omega)] at h
    cases h

/-- R189: LD Vx,K stores the least pressed key, or changes nothing at all. -/
theorem execLdVxK_next {x : Reg} {s t : State} (h : execLdVxK x s = .next t) :
    (∃ k, leastPressed s = some k ∧ t = (s.setReg x (BitVec.ofNat 8 k.val)).advance) ∨ (leastPressed s = none ∧ t = s) := by
  cases hk : leastPressed s with
  | some k => simp only [execLdVxK, hk] at h; exact .inl ⟨k, rfl, (Host.Outcome.next.inj h).symm⟩
  | none => simp only [execLdVxK, hk] at h; exact .inr ⟨rfl, (Host.Outcome.next.inj h).symm⟩

/-! ## The pieces of state an instruction writes -/

/-- A piece of state beside the registers, PC and the count of draws. -/
inductive Piece where
  | index | stack | delay | sound | memory | display
  deriving DecidableEq

/-- The pieces LD [I],Vx and LD Vx,[I] write beside what they store or load (R158, R160). -/
def steppedPieces : LdstI → List Piece
  | .unchanged => []
  | .addXPlus1 => [.index]

@[simp] theorem mem_steppedPieces {p : Piece} {l : LdstI} : p ∈ steppedPieces l ↔ l = .addXPlus1 ∧ p = .index := by
  cases l <;> simp [steppedPieces]

/-- The pieces each instruction may write (R26 to R34, R56). -/
def writtenPieces (ldst : LdstI) : Instr → List Piece
  | .cls | .drw _ _ _ => [.display]
  | .ret | .call _ => [.stack]
  | .ldI _ | .addI _ | .ldF _ => [.index]
  | .ldDtVx _ => [.delay]
  | .ldStVx _ => [.sound]
  | .ldB _ => [.memory]
  | .storeRegs _ => [.memory] ++ steppedPieces ldst
  | .loadRegs _ => steppedPieces ldst
  | _ => []

/-- From `s` to `t` every piece but those listed is as it was, and so are the latch, the parameters and the host's list. -/
structure KeepsPiecesBut (ps : List Piece) (s t : State) : Prop where
  keys       : t.keys = s.keys
  params     : t.params = s.params
  hostEvents : t.hostEvents = s.hostEvents
  index      : .index ∉ ps → t.i = s.i
  stack      : .stack ∉ ps → t.sp = s.sp ∧ t.stack = s.stack
  delay      : .delay ∉ ps → t.dt = s.dt
  sound      : .sound ∉ ps → t.st = s.st
  memory     : .memory ∉ ps → t.mem = s.mem
  display    : .display ∉ ps → t.fb = s.fb

/-- Registers, PC and the count of draws are no piece. -/
theorem keepsPiecesBut_of_regs (ps : List Piece) (s : State) (v : Vector Byte 16) (pc : Word) (n : Nat) :
    KeepsPiecesBut ps s { s with v := v, pc := pc, draws := n } := by
  constructor <;> intros <;> trivial

theorem KeepsPiecesBut.trans {ps qs : List Piece} {s t u : State} (h : KeepsPiecesBut ps s t) (h' : KeepsPiecesBut qs t u) :
    KeepsPiecesBut (ps ++ qs) s u := by
  cases h
  cases h'
  constructor <;> simp_all

theorem KeepsPiecesBut.advance {ps : List Piece} {s t : State} (h : KeepsPiecesBut ps s t) : KeepsPiecesBut ps s t.advance :=
  ⟨h.keys, h.params, h.hostEvents, h.index, h.stack, h.delay, h.sound, h.memory, h.display⟩

theorem KeepsPiecesBut.keepsDisplay {ps : List Piece} {s t : State} (h : KeepsPiecesBut ps s t) (hm : .display ∉ ps) :
    KeepsDisplay s t :=
  fun x y => congrArg (·.pixel x y) (h.display hm)

theorem KeepsPiecesBut.keepsStack {ps : List Piece} {s t : State} (h : KeepsPiecesBut ps s t) (hm : .stack ∉ ps) :
    KeepsStack s t :=
  ⟨(h.stack hm).1, fun j => congrArg (·.get j) (h.stack hm).2⟩

theorem copyBytes_keepsPiecesBut (s : State) (a : Nat) (bs : List Byte) : KeepsPiecesBut [.memory] s (copyBytes s a bs) := by
  constructor <;> simp

theorem setRegs_keepsPiecesBut (s : State) (rs : List Reg) (bs : List Byte) : KeepsPiecesBut [] s (setRegs s rs bs) := by
  rw [setRegs_eq]
  exact keepsPiecesBut_of_regs [] s _ _ _

theorem stepIndex_keepsPiecesBut {s : State} {l : LdstI} (hl : s.params.ldstI = l) (x : Reg) :
    KeepsPiecesBut (steppedPieces l) s (s.stepIndex x) := by
  cases l <;> simp only [State.stepIndex, hl] <;> constructor <;> simp

/-- R26 to R35, R56: an instruction that completes keeps all that its row of the table does not list. -/
theorem exec_keepsPiecesBut {i : Instr} {s t : State} (h : exec i s = .next t) :
    KeepsPiecesBut (writtenPieces s.params.ldstI i) s t := by
  cases i
  case jp | seByte | sneByte | seReg | sneReg | jpV0 | ldByte | addByte | ldReg | orReg | andReg | xorReg | addReg | subReg | shr |
      subnReg | shl | rnd | ldVxDt =>
    cases h
    exact keepsPiecesBut_of_regs _ s _ _ _
  case cls | ldI | ldDtVx | ldStVx =>
    cases h
    constructor <;> simp [writtenPieces]
  case skp x =>
    obtain ⟨_, rfl⟩ := execSkp_next h
    exact keepsPiecesBut_of_regs _ s _ _ _
  case sknp x =>
    obtain ⟨_, rfl⟩ := execSknp_next h
    exact keepsPiecesBut_of_regs _ s _ _ _
  case ldVxK x =>
    obtain ⟨k, _, rfl⟩ | ⟨_, rfl⟩ := execLdVxK_next h
    · exact keepsPiecesBut_of_regs _ s _ _ _
    · exact keepsPiecesBut_of_regs _ t _ _ _
  case ret =>
    obtain ⟨_, _, rfl⟩ := execRet_next h
    constructor <;> simp [writtenPieces]
  case call nnn =>
    obtain ⟨_, rfl⟩ := execCall_next h
    constructor <;> simp [writtenPieces]
  case addI x =>
    obtain ⟨_, _, rfl⟩ := execAddI_next h
    constructor <;> simp [writtenPieces]
  case ldF x =>
    obtain ⟨_, _, rfl⟩ := execLdF_next h
    constructor <;> simp [writtenPieces]
  case drw x y n =>
    obtain ⟨_, rfl⟩ := next_of_ite_fault ((execDrw_eq x y n s).symm.trans h)
    constructor <;> simp [writtenPieces]
  case ldB x =>
    obtain ⟨_, rfl⟩ := next_of_ite_fault ((execLdB_eq x s).symm.trans h)
    constructor <;> simp [writtenPieces]
  case storeRegs x =>
    obtain ⟨_, rfl⟩ := next_of_ite_fault ((execStoreRegs_eq x s).symm.trans h)
    exact ((copyBytes_keepsPiecesBut s _ _).trans (stepIndex_keepsPiecesBut (by rw [copyBytes_params]) x)).advance
  case loadRegs x =>
    obtain ⟨_, rfl⟩ := next_of_ite_fault ((execLoadRegs_eq x s).symm.trans h)
    exact ((setRegs_keepsPiecesBut s _ _).trans (stepIndex_keepsPiecesBut (by rw [(setRegs_keepsPiecesBut s _ _).params]) x)).advance

/-! ## Who writes a piece -/

theorem display_mem_writtenPieces (l : LdstI) (i : Instr) :
    .display ∈ writtenPieces l i ↔ i = .cls ∨ ∃ x y n, i = .drw x y n := by
  cases i <;> simp [writtenPieces]

theorem index_mem_writtenPieces (l : LdstI) (i : Instr) :
    .index ∈ writtenPieces l i ↔ (∃ nnn, i = .ldI nnn) ∨ (∃ x, i = .addI x) ∨ (∃ x, i = .ldF x) ∨
      (l = .addXPlus1 ∧ ∃ x, i = .storeRegs x ∨ i = .loadRegs x) := by
  cases i <;> simp [writtenPieces]

theorem stack_mem_writtenPieces (l : LdstI) (i : Instr) : .stack ∈ writtenPieces l i ↔ i = .ret ∨ ∃ nnn, i = .call nnn := by
  cases i <;> simp [writtenPieces]

theorem delay_mem_writtenPieces (l : LdstI) (i : Instr) : .delay ∈ writtenPieces l i ↔ ∃ x, i = .ldDtVx x := by
  cases i <;> simp [writtenPieces]

theorem sound_mem_writtenPieces (l : LdstI) (i : Instr) : .sound ∈ writtenPieces l i ↔ ∃ x, i = .ldStVx x := by
  cases i <;> simp [writtenPieces]

theorem memory_mem_writtenPieces (l : LdstI) (i : Instr) :
    .memory ∈ writtenPieces l i ↔ ∃ x, i = .ldB x ∨ i = .storeRegs x := by
  cases i <;> simp [writtenPieces]

/-! ## The statements -/

/-- Settles O57: only CLS and DRW list the display. -/
theorem onlyClsAndDrwWriteTheDisplay : Obligations.OnlyClsAndDrwWriteTheDisplay := by
  intro i s t h hcls hdrw
  refine (exec_keepsPiecesBut h).keepsDisplay fun hm => ?_
  obtain hi | ⟨x, y, n, hi⟩ := (display_mem_writtenPieces _ i).1 hm
  · exact hcls hi
  · exact hdrw x y n hi

/-- Settles O59: no row of the table lists the latch, the parameters or the host's list. -/
theorem noInstructionWritesKeysOrParameters : Obligations.NoInstructionWritesKeysOrParameters := by
  intro i s t h
  have hk := exec_keepsPiecesBut h
  exact ⟨fun k => congrArg (·.get k) hk.keys, hk.params, hk.hostEvents⟩

/-- Settles O60: a piece that changed is listed, and the rows that list it are those named. -/
theorem writersOfIndexStackAndTimers : Obligations.WritersOfIndexStackAndTimers := by
  intro i s t h
  have hk := exec_keepsPiecesBut h
  refine ⟨fun hne => ?_, fun hne => ?_, fun hne => ?_, fun hne => ?_⟩
  · exact (index_mem_writtenPieces _ i).1 (not_imp_comm.1 hk.index hne)
  · exact (stack_mem_writtenPieces _ i).1 (not_imp_comm.1 hk.keepsStack hne)
  · exact (delay_mem_writtenPieces _ i).1 (not_imp_comm.1 hk.delay hne)
  · exact (sound_mem_writtenPieces _ i).1 (not_imp_comm.1 hk.sound hne)

end Sys2Proof.Machine
end

section
/-! The program counter after every instruction that completes (spec/10_state.md R24). -/

namespace Sys2Proof.Machine

/-! ## The stack and the latch, read as lists -/

theorem stack_getD_eq_slot (s : State) (j : Fin 16) : s.stack.toList.getD j.val 0 = s.slot j := by
  simp [List.getD, State.slot, Vector.get_eq_getElem]

theorem keys_getD_eq_key (s : State) (k : Key) : s.keys.toList.getD k.val false = s.key k := by
  simp [List.getD, State.key, Vector.get_eq_getElem]

/-- R189: LD Vx,K finds a key exactly when some key is pressed. -/
theorem keys_any_eq_isSome_leastPressed (s : State) : s.keys.toList.any id = (leastPressed s).isSome := by
  have hnone : s.keys.toList.any id = false ↔ leastPressed s = none := by
    rw [leastPressed_none_iff]
    simp [State.key, Vector.get_eq_getElem, Fin.forall_iff, Vector.any_eq_false]
  cases hk : leastPressed s <;> simp_all

/-! ## Jump targets as words, and skips -/

theorem addrWord_eq_ofNat (nnn : Addr) : addrWord nnn = BitVec.ofNat 16 nnn.toNat := (BitVec.ofNat_toNat 16 nnn).symm

theorem addrWord_add_byteWord (nnn : Addr) (b : Byte) : addrWord nnn + byteWord b = BitVec.ofNat 16 (nnn.toNat + b.toNat) := by
  rw [BitVec.ofNat_add, BitVec.ofNat_toNat, BitVec.ofNat_toNat]
  rfl

theorem skipIf_not_pc (s : State) (c : Bool) : (s.skipIf (!c)).pc = if c then s.pc + 2 else s.pc + 4 := by cases c <;> rfl

/-! ## The statement -/

/-- Settles O53: a completing instruction's next state is known from its inversion, and PC is read off it. -/
theorem pcAfterEveryInstruction : Obligations.PcAfterEveryInstruction := by
  intro i s t h
  cases i
  case cls | ldByte | addByte | ldReg | orReg | andReg | xorReg | addReg | subReg | shr | subnReg | shl | ldI | rnd | ldVxDt |
      ldDtVx | ldStVx =>
    cases h
    rfl
  case jp nnn =>
    cases h
    exact addrWord_eq_ofNat nnn
  case jpV0 nnn =>
    cases h
    exact addrWord_add_byteWord nnn _
  case call nnn =>
    obtain ⟨_, rfl⟩ := execCall_next h
    exact addrWord_eq_ofNat nnn
  case ret =>
    obtain ⟨j, hj, rfl⟩ := execRet_next h
    rw [hj]
    exact (stack_getD_eq_slot s j).symm
  case seByte | seReg | sneByte | sneReg =>
    cases h
    simp
  case skp x =>
    obtain ⟨hk, rfl⟩ := execSkp_next h
    rw [← keys_getD_eq_key]
    rfl
  case sknp x =>
    obtain ⟨hk, rfl⟩ := execSknp_next h
    rw [skipIf_not_pc, ← keys_getD_eq_key]
  case ldVxK x =>
    rw [keys_any_eq_isSome_leastPressed]
    obtain ⟨k, hk, rfl⟩ | ⟨hk, rfl⟩ := execLdVxK_next h <;> simp [hk]
  case addI x =>
    obtain ⟨_, _, rfl⟩ := execAddI_next h
    rfl
  case ldF x =>
    obtain ⟨_, _, rfl⟩ := execLdF_next h
    rfl
  case drw x y n =>
    obtain ⟨_, rfl⟩ := next_of_ite_fault ((execDrw_eq x y n s).symm.trans h)
    rfl
  case ldB x =>
    obtain ⟨_, rfl⟩ := next_of_ite_fault ((execLdB_eq x s).symm.trans h)
    simp
  case storeRegs x =>
    obtain ⟨_, rfl⟩ := next_of_ite_fault ((execStoreRegs_eq x s).symm.trans h)
    rw [stepIndex_eq]
    simp
  case loadRegs x =>
    obtain ⟨_, rfl⟩ := next_of_ite_fault ((execLoadRegs_eq x s).symm.trans h)
    rw [stepIndex_eq, setRegs_eq]
    rfl

end Sys2Proof.Machine
end

section
/-! The invariant (spec/10_state.md R25, R27, R28, R32): it holds at power-on, and every event keeps it. -/

namespace Sys2Proof.Machine

/-! ## What the invariant depends on -/

/-- The invariant speaks of SP, PC, the slots, memory and the parameters memory is read with. -/
theorem State.Inv.of_eq {s t : State} (h : s.Inv) (hsp : t.sp = s.sp) (hpc : t.pc = s.pc) (hstack : t.stack = s.stack)
    (hmem : t.mem = s.mem) (hparams : t.params = s.params) : t.Inv := by
  obtain ⟨h1, h2, h3, h4⟩ := h
  refine ⟨hsp ▸ h1, hpc ▸ h2, fun j => ?_, by rw [hmem, hparams]; exact h4⟩
  rw [State.slot, hstack]
  exact h3 j

/-! ## Power-on and the host's events -/

theorem powerOn_inv (p : Params) : (State.powerOn p).Inv := by
  have hpc : progBase.toNat ≤ 0x10FE := by decide
  exact ⟨Nat.zero_le _, hpc, fun j => by simp, Memory.wf_nil p⟩

/-- Settles O52: the values of R38 are inside the bounds, and no byte of memory is listed. -/
theorem resetHasTheInvariant : Obligations.ResetHasTheInvariant := ⟨powerOn_inv defaultParams, powerOn_inv⟩

theorem copyBytes_inv {s : State} (h : s.Inv) {a : Nat} {bs : List Byte} (hin : a + bs.length ≤ 4096) :
    (copyBytes s a bs).Inv := by
  obtain ⟨hsp, hpc, hslots, hmem⟩ := h
  refine ⟨by simpa using hsp, by simpa using hpc, by simpa using hslots, ?_⟩
  rw [copyBytes_params]
  exact copyBytes_wf s a bs hin hmem

/-! ## STEP, part by part -/

section Exec

variable {i : Instr} {s t : State}

/-- R27: CALL counts up to 16 entries, RET counts down, and no other instruction writes SP. -/
theorem exec_sp_le (h : exec i s = .next t) (hsp : s.sp.toNat ≤ 16) : t.sp.toNat ≤ 16 := by
  by_cases hm : .stack ∈ writtenPieces s.params.ldstI i
  · obtain rfl | ⟨nnn, rfl⟩ := (stack_mem_writtenPieces _ i).1 hm
    · obtain ⟨j, hj, rfl⟩ := execRet_next h
      simp only [State.setPc_sp, State.setSp_sp]
      bv_omega
    · obtain ⟨hlt, rfl⟩ := execCall_next h
      simp only [State.setPc_sp, State.setSp_sp]
      bv_omega
  · rw [((exec_keepsPiecesBut h).stack hm).1]
    exact hsp

/-- R25: a return address is that of an instruction fetched, plus 2. -/
theorem exec_slots_le (h : exec i s = .next t) (hpc : s.pc.toNat ≤ 0xFFE) (hslots : ∀ j, (s.slot j).toNat ≤ 0x1000) (j : Fin 16) :
    (t.slot j).toNat ≤ 0x1000 := by
  by_cases hm : .stack ∈ writtenPieces s.params.ldstI i
  · obtain rfl | ⟨nnn, rfl⟩ := (stack_mem_writtenPieces _ i).1 hm
    · obtain ⟨_, _, rfl⟩ := execRet_next h
      exact hslots j
    · obtain ⟨_, rfl⟩ := execCall_next h
      simp only [State.setPc_slot, State.setSp_slot, State.setSlot_slot]
      split
      · bv_omega
      · exact hslots j
  · rw [((exec_keepsPiecesBut h).keepsStack hm).2]
    exact hslots j

/-- R32: the bytes LD B and LD [I],Vx store lie inside MEM, and no other instruction writes memory. -/
theorem exec_mem_wf (h : exec i s = .next t) (hw : Memory.wf s.params s.mem = true) : Memory.wf t.params t.mem = true := by
  have hk := exec_keepsPiecesBut h
  rw [hk.params]
  by_cases hm : .memory ∈ writtenPieces s.params.ldstI i
  · obtain ⟨x, rfl | rfl⟩ := (memory_mem_writtenPieces _ i).1 hm
    · obtain ⟨hin, rfl⟩ := next_of_ite_fault ((execLdB_eq x s).symm.trans h)
      exact copyBytes_wf s _ _ (by rw [bcdDigits_length]; omega) hw
    · obtain ⟨hin, rfl⟩ := next_of_ite_fault ((execStoreRegs_eq x s).symm.trans h)
      rw [stepIndex_eq]
      exact copyBytes_wf s _ _ (by rw [List.length_map, regsUpTo_length]; omega) hw
  · rw [hk.memory hm]
    exact hw

/-- R25: where each instruction of the table of R24 leaves PC, when it was fetched. -/
theorem exec_pc_le (h : exec i s = .next t) (hpc : s.pc.toNat ≤ 0xFFE) (hslots : ∀ j, (s.slot j).toNat ≤ 0x1000) :
    t.pc.toNat ≤ 0x10FE := by
  have hstay : s.pc.toNat ≤ 0x10FE := by omega
  have hnext : (s.pc + 2).toNat ≤ 0x10FE := by bv_omega
  have hskip : (s.pc + 4).toNat ≤ 0x10FE := by bv_omega
  have ht := pcAfterEveryInstruction i s t h
  cases i <;> simp only at ht
  case jp nnn | call nnn | jpV0 nnn =>
    rw [ht, BitVec.toNat_ofNat]
    omega
  case ret =>
    obtain ⟨j, _, rfl⟩ := execRet_next h
    have := hslots j
    simp only [State.setPc_pc]
    omega
  case seByte | sneByte | seReg | sneReg | skp | sknp | ldVxK =>
    rw [ht]
    split <;> assumption
  all_goals
    rw [ht]
    exact hnext

end Exec

/-- R84: a STEP runs an instruction only where PC is at most 0xFFE, and its parts keep the invariant. -/
theorem runStep_inv {s t : State} (hs : s.Inv) (h : runStep s = .next t) : t.Inv := by
  obtain ⟨i, hi, h⟩ := runStep_next h
  have hpc : s.pc.toNat ≤ 0xFFE := ((nextInstr_ok_iff s i).1 hi).1
  exact ⟨exec_sp_le h hs.sp_le, exec_pc_le h hpc hs.slots_le, exec_slots_le h hpc hs.slots_le, exec_mem_wf h hs.mem_wf⟩

theorem deliver_inv {e : Event} {s t : State} (hs : s.Inv) (h : deliver e s = .next t) : t.Inv := by
  obtain ⟨rfl, h⟩ | ⟨rfl, rfl⟩ | ⟨k, p, hk, rfl, rfl⟩ | ⟨rfl, rfl⟩ | ⟨bs, off, rfl, hin, rfl⟩ := deliver_next h
  · exact runStep_inv hs h
  · exact hs.of_eq rfl rfl rfl rfl rfl
  · exact hs.of_eq rfl rfl rfl rfl rfl
  · exact (powerOn_inv s.params).of_eq rfl rfl rfl rfl rfl
  · exact copyBytes_inv hs hin

/-- Settles O51: a step is a STEP or the delivery of the first event listed, and both keep the invariant. -/
theorem stepKeepsTheInvariant : Obligations.StepKeepsTheInvariant := by
  intro s t hs h
  obtain ⟨_, h⟩ | ⟨e, rest, _, h⟩ := step_next h
  · exact runStep_inv hs h
  · exact deliver_inv (s := s.setHostEvents rest) (hs.of_eq rfl rfl rfl rfl rfl) h

end Sys2Proof.Machine
end

section
/-! Flag values (spec/10_state.md R22). -/

namespace Sys2Proof.Machine

theorem flagByte_eq_zero_or_one (b : Bool) : flagByte b = 0x00#8 ∨ flagByte b = 0x01#8 := by cases b <;> decide

/-- The end of every flag-writing instruction: the flag to VF, then PC (R133). -/
theorem reg_VF_of_flag_advance (s : State) (b : Bool) :
    ((s.setReg VF (flagByte b)).advance).reg VF = 0x00#8 ∨ ((s.setReg VF (flagByte b)).advance).reg VF = 0x01#8 := by
  simpa using flagByte_eq_zero_or_one b

/-- Settles O25: each of the seven ends with a flag byte written to VF; DRW and ADD I have a condition on the way. -/
theorem flagValuesAreZeroOrOne : Obligations.FlagValuesAreZeroOrOne := by
  rintro x y n s t (h | h | h | h | h | h | ⟨hp, h⟩)
  iterate 5
    · cases h
      exact reg_VF_of_flag_advance _ _
  · obtain ⟨_, rfl⟩ := next_of_ite_fault ((execDrw_eq x y n s).symm.trans h)
    exact reg_VF_of_flag_advance _ _
  · cases (execAddI_on x s hp).symm.trans h
    exact reg_VF_of_flag_advance _ _

end Sys2Proof.Machine
end

section
/-! The state at power-on (spec/10_state.md R36, R38; spec/00_scope.md R5). -/

namespace Sys2Proof.Machine

/-- R5: FONT_BASE keeps the font below the program area, so that both bytes at PC are zero. -/
theorem nextInstr_powerOn (p : Params) : nextInstr (State.powerOn p) = .error (.unknownInstruction 0x0000#16) := by
  have hbase : p.fontBase.val + 80 ≤ 0x200 := by omega
  have h0 : unlistedByte p 0x200 = 0 := unlistedByte_else p _ (.inr hbase)
  have h1 : unlistedByte p 0x201 = 0 := unlistedByte_else p _ (.inr (by omega))
  have hfetch : fetch (State.powerOn p) = .ok (wordOfBytes (unlistedByte p 0x200) (unlistedByte p 0x201)) :=
    memRead16_ok (State.powerOn p) 0x200 (by decide)
  rw [nextInstr, hfetch, h0, h1]
  rfl

theorem step_powerOn (p : Params) : step (State.powerOn p) = .fault (.unknownInstruction 0x0000#16) := by
  have hstep : step (State.powerOn p) = runStep (State.powerOn p) := rfl
  rw [hstep, runStep, nextInstr_powerOn]
  rfl

/-- Settles O48: field by field, the font at its base, and R5's defaults evaluated. -/
theorem powerOnState : Obligations.PowerOnState := by
  refine ⟨fun p => ?_, by decide, rfl, by decide, by decide⟩
  exact ⟨State.powerOn_reg p, rfl, rfl, rfl, State.powerOn_slot p, rfl, rfl, rfl, State.powerOn_pixel p, State.powerOn_key p,
    unlistedByte_font p, unlistedByte_else p, rfl, step_powerOn p⟩

end Sys2Proof.Machine
end

section
/-! Memory (spec/20_memory.md): what one byte read, one byte write and one fetch can do, and who writes memory. -/

namespace Sys2Proof.Machine

/-! ## The byte write -/

/-- A byte write inside MEM (R52). -/
theorem memWrite8_ok (s : State) (a : Nat) (b : Byte) (h : a ≤ 4095) : memWrite8 s a b = .ok (s.setByte a b) := if_pos h

/-- A byte write past the last address (R52). -/
theorem memWrite8_out (s : State) (a : Nat) (b : Byte) (h : 4095 < a) : memWrite8 s a b = .error .outOfBounds := if_neg (by omega)

/-- A byte write that succeeds sets that byte. -/
theorem eq_setByte_of_memWrite8 {s t : State} {a : Nat} {b : Byte} (h : memWrite8 s a b = .ok t) : t = s.setByte a b := by
  by_cases ha : a ≤ 4095
  · cases (memWrite8_ok s a b ha).symm.trans h
    rfl
  · cases (memWrite8_out s a b (by omega)).symm.trans h

/-- Whatever is stored, a change of memory, I and PC alone leaves the rest. -/
theorem onlyMemoryAndIndex_of_mem (s : State) (m : Memory) (i pc : Word) :
    OnlyMemoryAndIndex s { s with mem := m, i := i, pc := pc } :=
  ⟨fun _ _ => rfl, fun _ _ => rfl, ⟨rfl, fun _ => rfl⟩, ⟨rfl, rfl⟩, fun _ => rfl, ⟨rfl, rfl⟩, rfl⟩

theorem setByte_keepsMemoryOutside (s : State) (a : Nat) (b : Byte) : KeepsMemoryOutside a 1 s (s.setByte a b) :=
  copyBytes_byteAt_outside s a [b]

/-! ## The fetch -/

/-- The opcode at a PC both of whose bytes are inside MEM (R51, R84). -/
theorem fetch_ok (s : State) (h : s.pc.toNat ≤ 0xFFE) :
    fetch s = .ok (wordOfBytes (s.byteAt s.pc.toNat) (s.byteAt (s.pc.toNat + 1))) := memRead16_ok s _ h

/-! ## Memory as a piece of state -/

/-- What an unlisted address reads as comes from the parameters, so a byte is kept where both the list and they are. -/
theorem KeepsPiecesBut.keepsMemory {ps : List Piece} {s t : State} (h : KeepsPiecesBut ps s t) (hm : .memory ∉ ps) :
    KeepsMemory s t :=
  fun a => congrArg₂ (Memory.get · · a) h.params (h.memory hm)

/-! ## The statements -/

/-- Settles O11: the fetch puts together the two bytes at PC, each read back after the byte was set. -/
theorem storeIsSeenByTheNextFetch : Obligations.StoreIsSeenByTheNextFetch := by
  intro s t a b hw hpc
  refine ⟨_, fetch_ok t hpc, ?_⟩
  rw [highByte_wordOfBytes, lowByte_wordOfBytes]
  obtain rfl := eq_setByte_of_memWrite8 hw
  simp only [State.setByte_pc, State.setByte_byteAt]
  exact ⟨fun h => if_pos h.symm, fun h => if_pos h.symm, fun h => if_neg h.symm, fun h => if_neg h.symm⟩

/-- Settles O58: only the rows of LD B and LD [I],Vx list memory. -/
theorem onlyBcdAndStoreWriteMemory : Obligations.OnlyBcdAndStoreWriteMemory := by
  intro i s t h hi
  refine (exec_keepsPiecesBut h).keepsMemory fun hm => ?_
  obtain ⟨x, hx⟩ := (memory_mem_writtenPieces _ i).1 hm
  exact hx.elim (hi x).1 (hi x).2

/-- Settles O10: the reads are the primitives as defined, and the write is one byte set. -/
theorem memoryPrimitivesCheckTheBound : Obligations.MemoryPrimitivesCheckTheBound := by
  intro s a b
  refine ⟨rfl, rfl, fun ha => ?_, memWrite8_out s a b⟩
  refine ⟨s.setByte a b, memWrite8_ok s a b ha, ?_, setByte_keepsMemoryOutside s a b, onlyMemoryAndIndex_of_mem s _ s.i s.pc, rfl, rfl⟩
  rw [State.setByte_byteAt, if_pos rfl]

end Sys2Proof.Machine
end

section
/-! Decoding and encoding (spec/30_encoding.md R80 to R88): that they are inverse to each other, and that
decoding follows the opcode map. -/

namespace Sys2Proof

/-! ## Decoding an opcode, by what the lookup finds -/

theorem decodeWord_ok_iff (op : Word) (i : Instr) : decodeWord op = .ok i ↔ lookup op = some i := by
  unfold decodeWord
  cases lookup op <;> simp

theorem decodeWord_unknown_iff (op : Word) : decodeWord op = .error (.unknownInstruction op) ↔ lookup op = none := by
  unfold decodeWord
  cases lookup op <;> simp

theorem decode_cons_cons {hi lo : Byte} {i : Instr} (h : decodeWord (wordOfBytes hi lo) = .ok i) (rest : List Byte) :
    decode (hi :: lo :: rest) = .ok (i, rest) := by
  simp only [decode, h]

/-! ## From an instruction to its opcode and back -/

/-- The family and the fixed low part of its form lead the lookup to the instruction, whose operands are the other fields. -/
theorem lookup_encode (i : Instr) : lookup (encode i) = some i := by
  cases i
  case cls | ret => rfl
  case jp | call | ldI | jpV0 => simp [encode, lookup]
  case seByte | sneByte | ldByte | addByte | rnd => simp [encode, lookup]
  case seReg | sneReg => simp [encode, lookup, decodeLowNibbleZero]
  case ldReg | orReg | andReg | xorReg | addReg | subReg | shr | subnReg | shl => simp [encode, lookup, decodeAlu]
  case drw => simp [encode, lookup, fieldN]
  case skp | sknp => simp [encode, lookup, decodeKeys]
  case ldVxDt | ldVxK | ldDtVx | ldStVx | addI | ldF | ldB | storeRegs | loadRegs => simp [encode, lookup, decodeMisc]

theorem decodeWord_encode (i : Instr) : decodeWord (encode i) = .ok i := (decodeWord_ok_iff _ _).2 (lookup_encode i)

/-- Settles O2: every term of Instr is well formed, and its bytes put together are its opcode. -/
theorem decodeOfEncodeIsTheInstruction : Obligations.DecodeOfEncodeIsTheInstruction := by
  intro i _
  have hbytes : decodeWord (wordOfBytes (highByte (encode i)) (lowByte (encode i))) = .ok i := by
    rw [wordOfBytes_high_low, decodeWord_encode]
  exact ⟨decodeWord_encode i, decode_cons_cons hbytes⟩

/-! ## From an opcode to its instruction and back -/

theorem encode_of_decodeFixed {op : Word} {i : Instr} (h : decodeFixed op = some i) : encode i = op := by
  unfold decodeFixed at h
  split_ifs at h <;> cases h <;> exact Eq.symm ‹_›

theorem eq_of_decodeLowNibbleZero {low : Nibble} {i j : Instr} (h : decodeLowNibbleZero low i = some j) :
    low = 0x0#4 ∧ i = j := by
  simpa [decodeLowNibbleZero] using h

theorem encode_of_decodeAlu {x y : Reg} {sub : Nibble} {i : Instr} (h : decodeAlu x y sub = some i) :
    encode i = formXyn 0x8#4 x y sub := by
  unfold decodeAlu at h
  split at h <;> cases h <;> exact congrArg (formXyn 0x8#4 x y) (BitVec.eq_of_toNat_eq (Eq.symm ‹_›))

theorem encode_of_decodeKeys {x : Reg} {low : Byte} {i : Instr} (h : decodeKeys x low = some i) :
    encode i = formXkk 0xE#4 x low := by
  unfold decodeKeys at h
  split at h <;> cases h <;> exact congrArg (formXkk 0xE#4 x) (BitVec.eq_of_toNat_eq (Eq.symm ‹_›))

theorem encode_of_decodeMisc {x : Reg} {low : Byte} {i : Instr} (h : decodeMisc x low = some i) :
    encode i = formXkk 0xF#4 x low := by
  unfold decodeMisc at h
  split at h <;> cases h <;> exact congrArg (formXkk 0xF#4 x) (BitVec.eq_of_toNat_eq (Eq.symm ‹_›))

theorem formNnn_of_family {op : Word} {f : Nibble} (h : (nibble3 op).toNat = f.toNat) : formNnn f (fieldNnn op) = op :=
  BitVec.eq_of_toNat_eq h ▸ formNnn_fields op

theorem formXkk_of_family {op : Word} {f : Nibble} (h : (nibble3 op).toNat = f.toNat) :
    formXkk f (fieldX op) (fieldKk op) = op :=
  BitVec.eq_of_toNat_eq h ▸ formXkk_fields op

theorem formXyn_of_family {op : Word} {f : Nibble} (h : (nibble3 op).toNat = f.toNat) :
    formXyn f (fieldX op) (fieldY op) (nibble0 op) = op :=
  BitVec.eq_of_toNat_eq h ▸ formXyn_fields op

/-- The branches are the families 0 to F in order; what the lookup read from the word, the encoder puts back. -/
theorem encode_of_lookup {op : Word} {i : Instr} (h : lookup op = some i) : encode i = op := by
  unfold lookup at h
  split at h
  case h_1 => exact encode_of_decodeFixed h
  case h_2 | h_3 | h_11 | h_12 =>
    cases h
    exact formNnn_of_family ‹_›
  case h_4 | h_5 | h_7 | h_8 | h_13 =>
    cases h
    exact formXkk_of_family ‹_›
  case h_6 | h_10 =>
    obtain ⟨h0, rfl⟩ := eq_of_decodeLowNibbleZero h
    rw [encode, ← h0]
    exact formXyn_of_family ‹_›
  case h_9 => exact (encode_of_decodeAlu h).trans (formXyn_of_family ‹_›)
  case h_14 =>
    cases h
    exact formXyn_of_family ‹_›
  case h_15 => exact (encode_of_decodeKeys h).trans (formXkk_of_family ‹_›)
  case h_16 =>
    have hlt := (nibble3 op).isLt
    have hF : (nibble3 op).toNat = 0xF := by
      simp only [imp_false] at *
      omega
    exact (encode_of_decodeMisc h).trans (formXkk_of_family hF)

/-- Settles O3: family by family, the word is the form of its own fields. -/
theorem encodeOfDecodeIsTheWord : Obligations.EncodeOfDecodeIsTheWord := fun op i h =>
  encode_of_lookup ((decodeWord_ok_iff op i).1 h)

/-! ## The words that are unknown -/

theorem decodeFixed_eq_none_iff (op : Word) : decodeFixed op = none ↔ op.toNat ≠ 0x00E0 ∧ op.toNat ≠ 0x00EE := by
  unfold decodeFixed
  split_ifs <;> simp_all [BitVec.toNat_eq]

theorem decodeLowNibbleZero_eq_none_iff (low : Nibble) (i : Instr) : decodeLowNibbleZero low i = none ↔ low.toNat ≠ 0 := by
  simp [decodeLowNibbleZero, BitVec.toNat_eq]

theorem decodeAlu_eq_none_iff (x y : Reg) (sub : Nibble) :
    decodeAlu x y sub = none ↔ sub.toNat ∈ [0x8, 0x9, 0xA, 0xB, 0xC, 0xD, 0xF] := by
  have := sub.isLt
  rw [decodeAlu]
  interval_cases sub.toNat <;> simp

theorem decodeKeys_eq_none_iff (x : Reg) (low : Byte) : decodeKeys x low = none ↔ low.toNat ∉ [0x9E, 0xA1] := by
  unfold decodeKeys
  split <;> simp_all

theorem decodeMisc_eq_none_iff (x : Reg) (low : Byte) :
    decodeMisc x low = none ↔ low.toNat ∉ [0x07, 0x0A, 0x15, 0x18, 0x1E, 0x29, 0x33, 0x55, 0x65] := by
  unfold decodeMisc
  split <;> simp_all

/-- R87, by the fields the lookup reads. -/
theorem lookup_eq_none_iff (op : Word) : lookup op = none ↔
    ((nibble3 op).toNat = 0x0 ∧ decodeFixed op = none) ∨
    ((nibble3 op).toNat = 0x5 ∧ (nibble0 op).toNat ≠ 0) ∨
    ((nibble3 op).toNat = 0x8 ∧ (nibble0 op).toNat ∈ [0x8, 0x9, 0xA, 0xB, 0xC, 0xD, 0xF]) ∨
    ((nibble3 op).toNat = 0x9 ∧ (nibble0 op).toNat ≠ 0) ∨
    ((nibble3 op).toNat = 0xE ∧ (fieldKk op).toNat ∉ [0x9E, 0xA1]) ∨
    ((nibble3 op).toNat = 0xF ∧ (fieldKk op).toNat ∉ [0x07, 0x0A, 0x15, 0x18, 0x1E, 0x29, 0x33, 0x55, 0x65]) := by
  have hlt := (nibble3 op).isLt
  rw [lookup]
  interval_cases (nibble3 op).toNat <;>
    simp [decodeLowNibbleZero_eq_none_iff, decodeAlu_eq_none_iff, decodeKeys_eq_none_iff, decodeMisc_eq_none_iff]

/-- Settles O5: the fields of the lookup, as numbers. -/
theorem unknownWordsAreExactlyThoseListed : Obligations.UnknownWordsAreExactlyThoseListed := by
  intro op
  rw [decodeWord_unknown_iff, lookup_eq_none_iff, decodeFixed_eq_none_iff, toNat_nibble3, toNat_nibble0, toNat_fieldKk]

/-! ## The opcode map: rows and families -/

theorem nibble3_and (op m : Word) : nibble3 (op &&& m) = nibble3 op &&& nibble3 m := BitVec.extractLsb'_and

theorem nibble0_and (op m : Word) : nibble0 (op &&& m) = nibble0 op &&& nibble0 m := BitVec.extractLsb'_and

theorem fieldKk_and (op m : Word) : fieldKk (op &&& m) = fieldKk op &&& fieldKk m := BitVec.extractLsb'_and

/-- The bits by which the decoder tells the opcodes of one family apart: the whole word, the low nibble, the low byte, or none but
the family itself. -/
def familyMask (f : Nibble) : Word :=
  match f.toNat with
  | 0x0 => 0xFFFF#16
  | 0x5 | 0x8 | 0x9 => 0xF00F#16
  | 0xE | 0xF => 0xF0FF#16
  | _ => 0xF000#16

theorem nibble3_and_familyMask (op : Word) (f : Nibble) : nibble3 (op &&& familyMask f) = nibble3 op := by
  have hf : nibble3 (familyMask f) = BitVec.allOnes 4 := by revert f; decide
  rw [nibble3_and, hf, BitVec.and_allOnes]

/-- Whether an opcode decodes depends on those bits alone. -/
theorem lookup_and_familyMask_eq_none_iff (op : Word) : lookup (op &&& familyMask (nibble3 op)) = none ↔ lookup op = none := by
  have hword : op &&& 0xFFFF#16 = op := BitVec.and_allOnes
  have hlow : nibble0 op &&& nibble0 0xF00F#16 = nibble0 op := BitVec.and_allOnes
  have hbyte : fieldKk op &&& fieldKk 0xF0FF#16 = fieldKk op := BitVec.and_allOnes
  have hlt := (nibble3 op).isLt
  rw [lookup_eq_none_iff, lookup_eq_none_iff, nibble3_and_familyMask, nibble0_and, fieldKk_and, familyMask]
  interval_cases (nibble3 op).toNat <;> simp [hword, hlow, hbyte]

/-- The masks of R86 are the families', and the `match` of a row is itself an opcode that decodes. -/
theorem opcodeTable_row {r : OpcodeRow} (hr : r ∈ opcodeTable) :
    r.mask = familyMask (nibble3 r.bits) ∧ lookup r.bits ≠ none := by
  have hall : ∀ r ∈ opcodeTable, r.mask = familyMask (nibble3 r.bits) ∧ lookup r.bits ≠ none := by decide
  exact hall r hr

/-- A word of a row is of the row's family, so the row's mask is that of the word's own family. -/
theorem and_familyMask_of_row {r : OpcodeRow} (hr : r ∈ opcodeTable) {op : Word} (h : op &&& r.mask = r.bits) :
    op &&& familyMask (nibble3 op) = r.bits := by
  obtain ⟨hmask, -⟩ := opcodeTable_row hr
  have hfamily : nibble3 r.bits = nibble3 op := by
    rw [← nibble3_and_familyMask op (nibble3 r.bits), ← hmask, h]
  rw [← hfamily, ← hmask, h]

theorem lookup_ne_none_of_row {r : OpcodeRow} (hr : r ∈ opcodeTable) {op : Word} (h : op &&& r.mask = r.bits) :
    lookup op ≠ none := by
  obtain ⟨-, hbits⟩ := opcodeTable_row hr
  rwa [← and_familyMask_of_row hr h, Ne, lookup_and_familyMask_eq_none_iff] at hbits

theorem opcodeTable_bits_nodup : (opcodeTable.map OpcodeRow.bits).Nodup := by decide

/-- No word matches two rows: the masked word is the `match` of both. -/
theorem row_unique {r q : OpcodeRow} (hr : r ∈ opcodeTable) (hq : q ∈ opcodeTable) {op : Word}
    (h : op &&& r.mask = r.bits) (h' : op &&& q.mask = q.bits) : r = q :=
  List.inj_on_of_nodup_map opcodeTable_bits_nodup hr hq
    ((and_familyMask_of_row hr h).symm.trans (and_familyMask_of_row hq h'))

/-- R86, one row per constructor. -/
theorem encode_in_row (i : Instr) : Laws.EncodesInRow.Statement i := by
  cases i
  open Laws.EncodesInRow in
  exacts [cls, ret, jp _, call _, seByte _ _, sneByte _ _, seReg _ _, ldByte _ _, addByte _ _, ldReg _ _, orReg _ _, andReg _ _,
    xorReg _ _, addReg _ _, subReg _ _, shr _ _, subnReg _ _, shl _ _, sneReg _ _, ldI _, jpV0 _, rnd _ _, drw _ _ _, skp _, sknp _,
    ldVxDt _, ldVxK _, ldDtVx _, ldStVx _, addI _, ldF _, ldB _, storeRegs _, loadRegs _]

/-- A word that decodes lies in the row of its instruction, being that instruction's opcode. -/
theorem row_of_decodeWord {op : Word} {i : Instr} (h : decodeWord op = .ok i) :
    ∃ r, i.row? = some r ∧ op &&& r.mask = r.bits := by
  obtain ⟨r, hr, hcovers⟩ := encode_in_row i
  rw [encode_of_lookup ((decodeWord_ok_iff op i).1 h)] at hcovers
  exact ⟨r, hr, beq_iff_eq.1 hcovers⟩

theorem decodeWord_of_row {r : OpcodeRow} (hr : r ∈ opcodeTable) {op : Word} (h : op &&& r.mask = r.bits) :
    ∃ i, decodeWord op = .ok i := by
  obtain ⟨i, hi⟩ := Option.ne_none_iff_exists'.1 (lookup_ne_none_of_row hr h)
  exact ⟨i, (decodeWord_ok_iff op i).2 hi⟩

theorem decodeWord_unknown_of_not_ok {op : Word} (h : ∀ i, decodeWord op ≠ .ok i) :
    decodeWord op = .error (.unknownInstruction op) := by
  rw [decodeWord_unknown_iff]
  exact Option.eq_none_iff_forall_ne_some.2 fun i hi => h i ((decodeWord_ok_iff op i).2 hi)

/-- Settles O4: a word decodes to its instruction's row; a row's word decodes because the row's `match` does. -/
theorem decodingFollowsTheOpcodeMap : Obligations.DecodingFollowsTheOpcodeMap := by
  refine ⟨fun op => ⟨?_, ?_⟩, fun _ _ => row_of_decodeWord, fun _ hr _ hq _ => row_unique hr hq,
    fun _ => decodeWord_unknown_of_not_ok⟩
  · rintro ⟨i, hi⟩
    obtain ⟨r, hr, h⟩ := row_of_decodeWord hi
    exact ⟨r, List.mem_of_getElem? hr, h⟩
  · rintro ⟨r, hr, h⟩
    exact decodeWord_of_row hr h

/-! ## Sample words -/

/-- Settles O1: the decoder evaluated on each word. -/
theorem tableWordsDecodeToTheirInstructions : Obligations.TableWordsDecodeToTheirInstructions := by
  unfold Obligations.TableWordsDecodeToTheirInstructions
  decide

end Sys2Proof
end

section
/-! The STEP event (spec/30_encoding.md R84): what a step does when the host lists no event first, or a STEP. -/

namespace Sys2Proof.Machine

/-- R6, log entry 5: no event listed is a STEP. -/
theorem step_of_hostEvents_nil {s : State} (h : s.hostEvents = []) : step s = runStep s := by
  simp only [step, h]

/-- The fetch with a byte of the opcode past the last address (R51, R84). -/
theorem fetch_out (s : State) (h : 0xFFE < s.pc.toNat) : fetch s = .error .outOfBounds := memRead16_out s _ h

theorem runStep_of_nextInstr {s : State} {i : Instr} (h : nextInstr s = .ok i) : runStep s = exec i s := by
  simp only [runStep, h]

/-- A fault of the fetch is the fault of the STEP. -/
theorem runStep_of_fetch_error {s : State} {f : Fault} (h : fetch s = .error f) : runStep s = .fault f := by
  simp only [runStep, nextInstr, h, raise]

/-- Settles O6: the instruction at PC, which no listed event changes. -/
theorem stepRunsTheDecodedInstruction : Obligations.StepRunsTheDecodedInstruction := by
  intro s i hpc hi
  have hnext : nextInstr s = .ok i := (nextInstr_ok_iff s i).2 ⟨hpc, hi⟩
  refine ⟨fun h => ?_, fun rest h => ?_⟩
  · rw [step_of_hostEvents_nil h, runStep_of_nextInstr hnext]
  · rw [step_of_hostEvents_cons h]
    exact runStep_of_nextInstr ((nextInstr_setHostEvents s rest).trans hnext)

/-- Settles O7: the two outcomes of the 16-bit read at PC. -/
theorem fetchFaultsAboveFFE : Obligations.FetchFaultsAboveFFE := by
  refine fun s hevents => ⟨fun hpc => ?_, fetch_ok s⟩
  rw [step_of_hostEvents_nil hevents, runStep_of_fetch_error (fetch_out s hpc)]

end Sys2Proof.Machine
end

section
/-! Control transfer (spec/40_control_flow.md): jumps, CALL and RET, and the four skips that compare. -/

namespace Sys2Proof.Machine

/-! ## What a change of PC, and of PC and the stack, leaves -/

theorem onlyRegs_setPc (rs : List Reg) (s : State) (pc : Word) : OnlyRegs rs s (s.setPc pc) :=
  ⟨fun _ _ => rfl, rfl, fun _ => rfl, fun _ _ => rfl, ⟨rfl, fun _ => rfl⟩, ⟨rfl, rfl⟩, fun _ => rfl, ⟨rfl, rfl⟩, rfl⟩

/-- SP, the slots and PC are all that CALL and RET write (R100, R102). -/
theorem onlyStack_of_stack (s : State) (sp : Byte) (stack : Vector Word 16) (pc : Word) :
    OnlyStack s { s with sp := sp, stack := stack, pc := pc } :=
  ⟨fun _ _ => rfl, rfl, fun _ => rfl, fun _ _ => rfl, ⟨rfl, rfl⟩, fun _ => rfl, ⟨rfl, rfl⟩, rfl⟩

/-! ## A STEP whose instruction faults -/

theorem afterStep_of_exec_fault {i : Instr} {s : State} {f : Fault} (h : exec i s = .fault f) (hi : nextInstr s = .ok i) :
    afterStep s = s := by
  rw [afterStep, runStep_of_nextInstr hi, h]

/-! ## Jump targets -/

theorem addrWord_toNat (nnn : Addr) : (addrWord nnn).toNat = nnn.toNat :=
  BitVec.toNat_setWidth_of_le (by decide)

/-- R107: the sum is at most 0x10FE, so that 16 bits hold it. -/
theorem addrWord_add_byteWord_toNat (nnn : Addr) (b : Byte) : (addrWord nnn + byteWord b).toNat = nnn.toNat + b.toNat := by
  rw [addrWord_add_byteWord, BitVec.toNat_ofNat]
  omega

/-! ## CALL and RET, by the depth of the stack -/

/-- A CALL with `j` entries fills slot `j` (R102). -/
theorem exec_call_of_free (nnn : Addr) (s : State) (j : Fin 16) (h : s.sp.toNat = j.val) :
    exec (.call nnn) s = .next (((s.setSlot j (s.pc + 2)).setSp (s.sp + 1)).setPc (addrWord nnn)) := by
  have hlt : s.sp.toNat < 16 := h ▸ j.isLt
  obtain rfl : ⟨s.sp.toNat, hlt⟩ = j := Fin.ext h
  rw [exec, execCall, push_ok s _ hlt]

/-- A CALL on a full stack (R202). -/
theorem exec_call_of_full (nnn : Addr) (s : State) (h : 16 ≤ s.sp.toNat) : exec (.call nnn) s = .fault .stackOverflow := by
  simp only [exec, execCall, push_full s _ h, raise]

/-- A RET with `j + 1` entries takes slot `j` (R100). -/
theorem exec_ret_of_entry (s : State) (j : Fin 16) (h : s.sp.toNat = j.val + 1) :
    exec .ret s = .next ((s.setSp (s.sp - 1)).setPc (s.slot j)) := popIntoPc_ok s j h

/-! ## The four skips that compare -/

/-- An instruction that is `skipIf`, with the two sides of its condition (R103 to R106). -/
theorem skip_of_exec_skipIf {i : Instr} {s : State} {c : Bool} {p q : Prop} (h : exec i s = .next (s.skipIf c))
    (hp : p → c = true) (hq : q → c = false) :
    ∃ t, exec i s = .next t ∧ (p → t.pc = s.pc + 4) ∧ (q → t.pc = s.pc + 2) ∧ OnlyRegs [] s t := by
  refine ⟨_, h, fun h4 => ?_, fun h2 => ?_, onlyRegs_setPc [] s _⟩
  · rw [State.skipIf_pc, hp h4, if_pos rfl]
  · rw [State.skipIf_pc, hq h2, if_neg Bool.false_ne_true]

/-- R85 for families 5 and 9: a low nibble other than 0 is no instruction. -/
theorem decodeWord_formXyn_ne_ok {f low : Nibble} (hf : f = 0x5#4 ∨ f = 0x9#4) (hlow : low ≠ 0) (x y : Reg) (i : Instr) :
    decodeWord (formXyn f x y low) ≠ .ok i := by
  have hnat : low.toNat ≠ 0 := fun h => hlow (BitVec.eq_of_toNat_eq h)
  have hnone : lookup (formXyn f x y low) = none := by
    rw [lookup_eq_none_iff, nibble3_formXyn, nibble0_formXyn]
    obtain rfl | rfl := hf
    · exact .inr (.inl ⟨rfl, hnat⟩)
    · exact .inr (.inr (.inr (.inl ⟨rfl, hnat⟩)))
  intro hi
  cases hnone.symm.trans ((decodeWord_ok_iff _ i).1 hi)

/-! ## The statements -/

/-- Settles O16: RET takes the slot CALL wrote, which lies above the live ones. -/
theorem returnGoesBehindTheCall : Obligations.ReturnGoesBehindTheCall := by
  intro nnn s h
  obtain ⟨j, hj⟩ : ∃ j : Fin 16, s.sp.toNat = j.val := ⟨⟨_, h⟩, rfl⟩
  have hdepth : (s.sp + 1).toNat = j.val + 1 := by bv_omega
  refine ⟨_, _, exec_call_of_free nnn s j hj, exec_ret_of_entry _ j hdepth, ?_, ?_, fun k hk => ?_, onlyStack_of_stack s _ _ _⟩
  · simp
  · simp
  · have hne : j ≠ k := fun hjk => (hjk ▸ hj ▸ hk).false
    simp [hne]

/-- Settles O12: the address is PC, its 12 bits extended to 16. -/
theorem jumpWritesPc : Obligations.JumpWritesPc := fun nnn s =>
  ⟨decodeWord_encode (.jp nnn), _, rfl, addrWord_toNat nnn, onlyRegs_setPc [] s _⟩

/-- Settles O13: the sum of the two words has no carry out of 16 bits. -/
theorem jumpAddsV0 : Obligations.JumpAddsV0 := fun nnn s =>
  ⟨decodeWord_encode (.jpV0 nnn), _, rfl, addrWord_add_byteWord_toNat nnn _, onlyRegs_setPc [] s _⟩

/-- Settles O14: the push that has a slot, and the one that has none. -/
theorem callPushesTheNextAddress : Obligations.CallPushesTheNextAddress := by
  refine fun nnn s => ⟨decodeWord_encode (.call nnn), fun j hj => ?_, fun hfull => ?_⟩
  · refine ⟨_, exec_call_of_free nnn s j hj, ?_, fun k hk => ?_, ?_, addrWord_toNat nnn, onlyStack_of_stack s _ _ _⟩
    · simp
    · simp [hk.symm]
    · simp only [State.setPc_sp, State.setSp_sp]
      bv_omega
  · have hfault := exec_call_of_full nnn s hfull.ge
    exact ⟨hfault, afterStep_of_exec_fault hfault⟩

/-- Settles O15: the pop that has an entry, and the one that has none. -/
theorem retPopsIntoPc : Obligations.RetPopsIntoPc := by
  refine fun s => ⟨decodeWord_encode .ret, fun j hj => ?_, fun hempty => ?_⟩
  · refine ⟨_, exec_ret_of_entry s j hj, rfl, ?_, fun _ => rfl, onlyStack_of_stack s _ _ _⟩
    simp only [State.setPc_sp, State.setSp_sp]
    bv_omega
  · have hfault : exec .ret s = .fault .stackUnderflow := popIntoPc_empty s (BitVec.eq_of_toNat_eq hempty)
    exact ⟨hfault, afterStep_of_exec_fault hfault⟩

/-- Settles O17: a skip on `Vx = kk`, and one on its negation. -/
theorem skipsCompareWithAByte : Obligations.SkipsCompareWithAByte := fun x kk _ =>
  ⟨decodeWord_encode (.seByte x kk), decodeWord_encode (.sneByte x kk),
    skip_of_exec_skipIf rfl beq_iff_eq.2 beq_eq_false_iff_ne.2, skip_of_exec_skipIf rfl bne_iff_ne.2 bne_eq_false_iff_eq.2⟩

/-- Settles O18: a skip on `Vx = Vy`, and one on its negation. -/
theorem skipsCompareTwoRegisters : Obligations.SkipsCompareTwoRegisters := fun x y _ =>
  ⟨decodeWord_encode (.seReg x y), decodeWord_encode (.sneReg x y),
    fun _ hlow i => ⟨decodeWord_formXyn_ne_ok (.inl rfl) hlow x y i, decodeWord_formXyn_ne_ok (.inr rfl) hlow x y i⟩,
    skip_of_exec_skipIf rfl beq_iff_eq.2 beq_eq_false_iff_ne.2, skip_of_exec_skipIf rfl bne_iff_ne.2 bne_eq_false_iff_eq.2⟩

end Sys2Proof.Machine
end

section
/-! Register load, arithmetic, logic and random (spec/41_load_alu.md). -/

namespace Sys2Proof.Machine

/-! ## One register written, and what is kept -/

/-- New registers and a new PC, the registers not listed being as before. -/
theorem onlyRegs_of_regs {rs : List Reg} {s : State} {v : Vector Byte 16} (hv : ∀ r, r ∉ rs → v.get r = s.reg r) (pc : Word) :
    OnlyRegs rs s { s with v := v, pc := pc } :=
  ⟨hv, rfl, fun _ => rfl, fun _ _ => rfl, ⟨rfl, fun _ => rfl⟩, ⟨rfl, rfl⟩, fun _ => rfl, ⟨rfl, rfl⟩, rfl⟩

theorem onlyRegs_setReg_advance (s : State) (x : Reg) (b : Byte) : OnlyRegs [x] s (s.setReg x b).advance := by
  refine onlyRegs_of_regs (fun r hr => ?_) _
  exact (State.setReg_reg s x b r).trans (if_neg (Ne.symm (List.ne_of_not_mem_cons hr)))

theorem setReg_advance_reg (s : State) (x : Reg) (b : Byte) : (s.setReg x b).advance.reg x = b := by simp

/-! ## Results and flags as numbers (R120) -/

theorem sub_toNat (a b : Byte) : (a - b).toNat = (a.toNat + 256 - b.toNat) % 256 := by bv_omega

theorem shiftRight_one_toNat (a : Byte) : (a >>> 1).toNat = a.toNat / 2 := by
  rw [BitVec.toNat_ushiftRight, Nat.shiftRight_one]

theorem shiftLeft_one_toNat (a : Byte) : (a <<< 1).toNat = 2 * a.toNat % 256 := by
  rw [BitVec.toNat_shiftLeft, Nat.shiftLeft_eq, Nat.mul_comm]

theorem carryFlag_toNat (a b : Byte) : (carryFlag a b).toNat = if 255 < a.toNat + b.toNat then 1 else 0 := by
  simp [carryFlag, flagByte_toNat]

theorem noBorrowFlag_toNat (a b : Byte) : (noBorrowFlag a b).toNat = if b.toNat ≤ a.toNat then 1 else 0 := by
  simp [noBorrowFlag, flagByte_toNat]

theorem shiftedOutRight_toNat (a : Byte) : (shiftedOutRight a).toNat = a.toNat % 2 := by revert a; decide

theorem shiftedOutLeft_toNat (a : Byte) : (shiftedOutLeft a).toNat = a.toNat / 128 := by revert a; decide

/-! ## The five flag-writing operations (R133) -/

/-- The instruction completes with a result to `V[x]`, then a flag to VF, then `pc <- pc + 2`, the two bytes given as numbers. -/
def EndsWithResultAndFlag (i : Instr) (x : Reg) (result flag : Nat) (s : State) : Prop :=
  ∃ r f : Byte, exec i s = .next (s.setResultThenFlag x r f).advance ∧ r.toNat = result ∧ f.toNat = flag

theorem addReg_ends (x y : Reg) (s : State) :
    EndsWithResultAndFlag (.addReg x y) x (((s.reg x).toNat + (s.reg y).toNat) % 256)
      (if 255 < (s.reg x).toNat + (s.reg y).toNat then 1 else 0) s :=
  ⟨_, _, rfl, BitVec.toNat_add _ _, carryFlag_toNat _ _⟩

theorem subReg_ends (x y : Reg) (s : State) :
    EndsWithResultAndFlag (.subReg x y) x (((s.reg x).toNat + 256 - (s.reg y).toNat) % 256)
      (if (s.reg y).toNat ≤ (s.reg x).toNat then 1 else 0) s :=
  ⟨_, _, rfl, sub_toNat _ _, noBorrowFlag_toNat _ _⟩

theorem subnReg_ends (x y : Reg) (s : State) :
    EndsWithResultAndFlag (.subnReg x y) x (((s.reg y).toNat + 256 - (s.reg x).toNat) % 256)
      (if (s.reg x).toNat ≤ (s.reg y).toNat then 1 else 0) s :=
  ⟨_, _, rfl, sub_toNat _ _, noBorrowFlag_toNat _ _⟩

theorem shr_ends (x y : Reg) (s : State) :
    EndsWithResultAndFlag (.shr x y) x ((shiftOperand s x y).toNat / 2) ((shiftOperand s x y).toNat % 2) s :=
  ⟨_, _, rfl, shiftRight_one_toNat _, shiftedOutRight_toNat _⟩

theorem shl_ends (x y : Reg) (s : State) :
    EndsWithResultAndFlag (.shl x y) x (2 * (shiftOperand s x y).toNat % 256) ((shiftOperand s x y).toNat / 128) s :=
  ⟨_, _, rfl, shiftLeft_one_toNat _, shiftedOutLeft_toNat _⟩

/-- The register file after the two writes: the flag is looked for first. -/
theorem setResultThenFlag_reg (s : State) (x : Reg) (r f : Byte) (q : Reg) :
    (s.setResultThenFlag x r f).reg q = if q = VF then f else if q = x then r else s.reg q := by
  simp only [State.setResultThenFlag, State.setReg_reg, @eq_comm Reg q]

theorem EndsWithResultAndFlag.writesResultThenFlag {i : Instr} {x : Reg} {result flag : Nat} {s : State}
    (h : EndsWithResultAndFlag i x result flag s) : WritesResultThenFlag i x result flag s := by
  obtain ⟨r, f, hexec, rfl, rfl⟩ := h
  refine ⟨_, hexec, fun q => ?_⟩
  rw [State.advance_reg, setResultThenFlag_reg]
  split_ifs <;> rfl

theorem onlyRegs_setResultThenFlag_advance (s : State) (x : Reg) (r f : Byte) :
    OnlyRegs [x, VF] s (s.setResultThenFlag x r f).advance := by
  refine onlyRegs_of_regs (fun q hq => ?_) _
  obtain ⟨hx, hVF⟩ : q ≠ x ∧ q ≠ VF := by simpa using hq
  exact setResultThenFlag_other s x r f q hx hVF

/-- Register by register, PC, and the frame. -/
theorem EndsWithResultAndFlag.completes {i : Instr} {x : Reg} {result flag : Nat} {s : State}
    (h : EndsWithResultAndFlag i x result flag s) :
    ∃ t, exec i s = .next t ∧ (x ≠ 0xF → (t.reg x).toNat = result) ∧ (t.reg 0xF).toNat = flag ∧ t.pc = s.pc + 2 ∧
      OnlyRegs [x, 0xF] s t := by
  obtain ⟨r, f, hexec, rfl, rfl⟩ := h
  refine ⟨_, hexec, fun hx => ?_, ?_, rfl, onlyRegs_setResultThenFlag_advance s x r f⟩
  · rw [State.advance_reg, setResultThenFlag_dest s x r f hx]
  · rw [State.advance_reg, setResultThenFlag_VF]

/-- R129, R131: the value shifted is the register SHIFT_SRC names. -/
theorem shiftOperand_eq {s : State} {x y : Reg} {a : Byte}
    (h : s.params.shiftSrc = .vx ∧ a = s.reg x ∨ s.params.shiftSrc = .vy ∧ a = s.reg y) : shiftOperand s x y = a := by
  obtain ⟨hp, rfl⟩ | ⟨hp, rfl⟩ := h <;> rw [shiftOperand, hp]

/-! ## The statements -/

/-- Settles O21: the sum and its carry, and what the two writes leave. -/
theorem addSetsCarry : Obligations.AddSetsCarry := fun x y s =>
  ⟨decodeWord_encode (.addReg x y), (addReg_ends x y s).completes⟩

/-- Settles O22: the two differences and their flags, and what the two writes leave. -/
theorem subtractionsSetNoBorrow : Obligations.SubtractionsSetNoBorrow := fun x y s =>
  ⟨decodeWord_encode (.subReg x y), decodeWord_encode (.subnReg x y), (subReg_ends x y s).completes, (subnReg_ends x y s).completes⟩

/-- Settles O23: the operand is SHIFT_SRC's, halved or doubled, with the bit pushed out as its remainder or quotient. -/
theorem shiftsPushABitIntoVF : Obligations.ShiftsPushABitIntoVF := by
  intro x y s a h
  obtain rfl := shiftOperand_eq h
  exact ⟨decodeWord_encode (.shr x y), decodeWord_encode (.shl x y), (shr_ends x y s).completes, (shl_ends x y s).completes⟩

/-- Settles O24: in each of the five the register file after the two writes has the flag in VF, whatever x and y are. -/
theorem flagWriteIsLast : Obligations.FlagWriteIsLast := by
  rintro x y s _ _ c rfl rfl h
  obtain rfl : (shiftOperand s x y).toNat = c := by
    obtain ⟨hp, rfl⟩ | ⟨hp, rfl⟩ := h
    · rw [shiftOperand_eq (.inl ⟨hp, rfl⟩)]
    · rw [shiftOperand_eq (.inr ⟨hp, rfl⟩)]
  exact ⟨(addReg_ends x y s).writesResultThenFlag, (subReg_ends x y s).writesResultThenFlag,
    (subnReg_ends x y s).writesResultThenFlag, (shr_ends x y s).writesResultThenFlag, (shl_ends x y s).writesResultThenFlag⟩

/-- Settles O19: each of the three is one register write, the sum reduced modulo 256. -/
theorem loadsAndAddImmediateWriteOneRegister : Obligations.LoadsAndAddImmediateWriteOneRegister := by
  refine fun x y kk s => ⟨decodeWord_encode (.ldByte x kk), decodeWord_encode (.addByte x kk), decodeWord_encode (.ldReg x y), ?_, ?_, ?_⟩
  · exact ⟨_, rfl, setReg_advance_reg s x kk, rfl, onlyRegs_setReg_advance s x _⟩
  · refine ⟨_, rfl, ?_, rfl, onlyRegs_setReg_advance s x _⟩
    rw [setReg_advance_reg, BitVec.toNat_add]
  · exact ⟨_, rfl, setReg_advance_reg s x _, rfl, onlyRegs_setReg_advance s x _⟩

/-- Settles O20: each of the three is one register write, whose bits are those of the operation on words. -/
theorem logicWritesNoFlag : Obligations.LogicWritesNoFlag := by
  refine fun x y s => ⟨decodeWord_encode (.orReg x y), decodeWord_encode (.andReg x y), decodeWord_encode (.xorReg x y), ?_, ?_, ?_⟩
  all_goals refine ⟨_, rfl, fun k => ?_, rfl, onlyRegs_setReg_advance s x _⟩
  · rw [setReg_advance_reg, BitVec.getLsbD_or]
  · rw [setReg_advance_reg, BitVec.getLsbD_and]
  · rw [setReg_advance_reg, BitVec.getLsbD_xor]

/-- Settles O26: one register write after the count of draws; the frame is that of the register write, from the state counted. -/
theorem randomIsADrawAndTheImmediate : Obligations.RandomIsADrawAndTheImmediate := by
  intro x kk s
  have hreg := setReg_advance_reg s.countDraw x (drawnByte s &&& kk)
  obtain ⟨hregs, hi, hmem, hfb, hstack, htimers, hkeys, hsetting, -⟩ := onlyRegs_setReg_advance s.countDraw x (drawnByte s &&& kk)
  refine ⟨decodeWord_encode (.rnd x kk), _, rfl, hreg, rfl, fun k hk => ?_, rfl, hregs, hi, hmem, hfb, hstack, htimers, hkeys, hsetting⟩
  rw [hreg, BitVec.getLsbD_and, hk, Bool.and_false]

end Sys2Proof.Machine
end

section
/-! Index register and memory (spec/42_index_memory.md): LD I, ADD I and LD F, and the blocks that LD B, LD [I],Vx and LD Vx,[I]
store or load. -/

namespace Sys2Proof.Machine

/-! ## What is kept -/

/-- Registers, I and PC are no part of the rest of the state. -/
theorem keepsOthers_of_regs_index (s : State) (v : Vector Byte 16) (i pc : Word) :
    let t := { s with v := v, i := i, pc := pc }
    KeepsMemory s t ∧ KeepsDisplay s t ∧ KeepsStack s t ∧ KeepsTimers s t ∧ KeepsRest s t :=
  ⟨fun _ => rfl, fun _ _ => rfl, ⟨rfl, fun _ => rfl⟩, ⟨rfl, rfl⟩, fun _ => rfl, ⟨rfl, rfl⟩, rfl⟩

theorem onlyIndex_setI_advance (s : State) (w : Word) : OnlyIndex s (s.setI w).advance :=
  ⟨fun _ _ => rfl, keepsOthers_of_regs_index s s.v w (s.pc + 2)⟩

/-- Bytes copied, then a new I and a new PC. -/
theorem onlyMemoryAndIndex_copyBytes (s : State) (a : Nat) (bs : List Byte) (i pc : Word) :
    OnlyMemoryAndIndex s { copyBytes s a bs with i := i, pc := pc } := by
  rw [copyBytes_eq]
  exact onlyMemoryAndIndex_of_mem s _ i pc

/-! ## Values for I, as numbers -/

theorem add_byteWord_toNat (i : Word) (b : Byte) : (i + byteWord b).toNat = (i.toNat + b.toNat) % 65536 := by
  rw [BitVec.toNat_add, byteWord, BitVec.toNat_setWidth_of_le (by decide)]

theorem indexOverflowFlag_toNat (i : Word) (b : Byte) :
    (indexOverflowFlag i b).toNat = if 0xFFF < i.toNat + b.toNat then 1 else 0 := by
  simp [indexOverflowFlag, flagByte_toNat]

/-- R154: FONT_BASE is at most 0x1B0, so 16 bits hold the address for any byte. -/
theorem fontAddress_toNat (p : Params) (b : Byte) : (fontAddress p b.toNat).toNat = p.fontBase.val + 5 * b.toNat := by
  have hbase := p.fontBase.isLt
  have hbyte := b.isLt
  rw [fontAddress, BitVec.toNat_ofNat]
  omega

theorem and_0x0F_toNat (b : Byte) : (b &&& 0x0F#8).toNat = b.toNat % 16 :=
  Nat.and_two_pow_sub_one_eq_mod b.toNat 4

/-! ## The index step -/

@[simp] theorem stepIndex_reg (s : State) (x r : Reg) : (s.stepIndex x).reg r = s.reg r := by rw [stepIndex_eq]; rfl

@[simp] theorem stepIndex_byteAt (s : State) (x : Reg) (a : Nat) : (s.stepIndex x).byteAt a = s.byteAt a := by
  rw [stepIndex_eq]; rfl

/-- R158, R160: I and PC at the end of an instruction that has changed neither before its index step. -/
theorem stepIndex_advance_i_pc {s t : State} (hparams : t.params = s.params) (hi : t.i = s.i) (hpc : t.pc = s.pc) (x : Reg) :
    (s.params.ldstI = .unchanged → (t.stepIndex x).advance.i = s.i) ∧
    (s.params.ldstI = .addXPlus1 → (t.stepIndex x).advance.i.toNat = (s.i.toNat + x.val + 1) % 65536) ∧
    (t.stepIndex x).advance.pc = s.pc + 2 := by
  rw [State.advance_i, stepIndex_i, hparams, hi]
  refine ⟨fun hp => by rw [hp], fun hp => ?_, ?_⟩
  · rw [hp, BitVec.toNat_add, BitVec.toNat_ofNat, Nat.add_mod_mod, Nat.add_assoc]
  · rw [stepIndex_eq, ← hpc]
    rfl

/-! ## The blocks stored and loaded -/

/-- R156: every digit fits a byte. -/
theorem bcdDigits_toNat (v : Byte) :
    (bcdDigits v).map BitVec.toNat = [v.toNat / 100, v.toNat / 10 % 10, v.toNat % 10] := by
  have hbyte := v.isLt
  simp only [bcdDigits, List.map_cons, List.map_nil, BitVec.toNat_ofNat, List.cons.injEq, and_true]
  omega

/-- A byte of a block stored, as a number. -/
theorem copyBytes_byteAt_toNat (s : State) (a : Nat) (bs : List Byte) {k n : Nat} (h : (bs.map BitVec.toNat)[k]? = some n) :
    ((copyBytes s a bs).byteAt (a + k)).toNat = n := by
  obtain ⟨hk, rfl⟩ := List.getElem?_eq_some_iff.1 h
  rw [List.length_map] at hk
  rw [copyBytes_byteAt_inside s a bs k hk, List.getElem_map]

/-- R158: Vr lands in byte `r` of the block. -/
theorem copyBytes_regsUpTo_byteAt (s : State) (a : Nat) {x r : Reg} (h : r ≤ x) :
    (copyBytes s a ((regsUpTo x).map s.reg)).byteAt (a + r.val) = s.reg r := by
  obtain ⟨hr, hreg⟩ := List.getElem?_eq_some_iff.1 (regsUpTo_getElem? x r h)
  rw [copyBytes_byteAt_inside _ _ _ _ (by rwa [List.length_map]), List.getElem_map, hreg]

/-- R160: Vr receives byte `r` of the block. -/
theorem setRegs_bytesFrom_reg (s : State) (a : Nat) {x r : Reg} (h : r ≤ x) :
    (setRegs s (regsUpTo x) (bytesFrom s a (x.val + 1))).reg r = s.byteAt (a + r.val) :=
  setRegs_reg_at s _ _ r.val r _ (regsUpTo_nodup x) (regsUpTo_getElem? x r h)
    (bytesFrom_getElem? s a _ r.val (Nat.lt_succ_of_le h))

/-! ## The statements -/

/-- Settles O28: the two settings differ in the register write only, which is that of the flag to VF. -/
theorem addIndexWrapsAtSixteenBits : Obligations.AddIndexWrapsAtSixteenBits := by
  refine fun x s => ⟨decodeWord_encode (.addI x), ?_⟩
  cases hp : s.params.fx1eVf with
  | off =>
    exact ⟨_, execAddI_off x s hp, add_byteWord_toNat _ _, rfl, fun _ _ _ => rfl, nofun, keepsOthers_of_regs_index s _ _ _⟩
  | on =>
    obtain ⟨hregs, -⟩ := onlyRegs_setReg_advance (s.setI (s.i + byteWord (s.reg x))) VF (indexOverflowFlag s.i (s.reg x))
    refine ⟨_, execAddI_on x s hp, add_byteWord_toNat _ _, rfl, nofun, fun _ => ⟨hregs, ?_⟩, keepsOthers_of_regs_index s _ _ _⟩
    rw [setReg_advance_reg, indexOverflowFlag_toNat]

/-- Settles O30: the four settings one by one; under `free` the frame is that of the write to I, from the state counted. -/
theorem fontDigitOutOfRange : Obligations.FontDigitOutOfRange := by
  intro x s habove
  have hexec : exec (.ldF x) s = _ := execLdF_above x s habove
  refine ⟨fun hp => ?_, fun hp => ?_, fun hp => ?_, fun hp => ?_⟩ <;> rw [hp] at hexec
  · exact hexec
  · refine ⟨_, hexec, ?_, rfl, onlyIndex_setI_advance s _⟩
    rw [← and_0x0F_toNat]
    exact fontAddress_toNat _ _
  · exact ⟨_, hexec, fontAddress_toNat _ _, rfl, onlyIndex_setI_advance s _⟩
  · obtain ⟨hregs, hmem, hfb, hstack, htimers, hkeys, hsetting, -⟩ := onlyIndex_setI_advance s.countDraw (drawnFontAddress s)
    exact ⟨_, hexec, rfl, rfl, hregs, hmem, hfb, hstack, htimers, hkeys, hsetting⟩

/-- Settles O31: the three digits copied to I on, or the fault. -/
theorem bcdStoresThreeDigits : Obligations.BcdStoresThreeDigits := by
  refine fun x s => ⟨decodeWord_encode (.ldB x), fun hin => ?_, fun hout => ?_⟩
  · have hdigit {k n : Nat} := copyBytes_byteAt_toNat s s.i.toNat (bcdDigits (s.reg x)) (k := k) (n := n)
    rw [bcdDigits_toNat] at hdigit
    refine ⟨_, (execLdB_eq x s).trans (if_pos hin), hdigit (k := 0) rfl, hdigit (k := 1) rfl, hdigit (k := 2) rfl,
      fun b hb => copyBytes_byteAt_outside s _ _ b hb, copyBytes_i s _ _, ?_, onlyMemoryAndIndex_copyBytes s _ _ _ _⟩
    rw [State.advance_pc, copyBytes_pc]
  · have hfault : exec (.ldB x) s = .fault .outOfBounds := (execLdB_eq x s).trans (if_neg (by omega))
    exact ⟨hfault, afterStep_of_exec_fault hfault⟩

/-- Settles O32: the registers copied to I on and the index step, or the fault. -/
theorem storeRegistersFromI : Obligations.StoreRegistersFromI := by
  refine fun x s => ⟨decodeWord_encode (.storeRegs x), fun hin => ?_, fun hout => ?_⟩
  · obtain ⟨hunchanged, hadded, hpc⟩ :=
      stepIndex_advance_i_pc (copyBytes_params s _ _) (copyBytes_i s _ _) (copyBytes_pc s _ _) x
    refine ⟨_, (execStoreRegs_eq x s).trans (if_pos hin), fun r hr => ?_, fun b hb => ?_, hunchanged, hadded, hpc, ?_⟩
    · rw [State.advance_byteAt, stepIndex_byteAt, copyBytes_regsUpTo_byteAt s _ hr]
    · rw [State.advance_byteAt, stepIndex_byteAt, copyBytes_byteAt_outside]
      rwa [List.length_map, regsUpTo_length]
    · rw [stepIndex_eq]
      exact onlyMemoryAndIndex_copyBytes s _ _ _ _
  · have hfault : exec (.storeRegs x) s = .fault .outOfBounds := (execStoreRegs_eq x s).trans (if_neg (by omega))
    exact ⟨hfault, afterStep_of_exec_fault hfault⟩

/-- Settles O33: the registers set from the bytes at I on and the index step, or the fault. -/
theorem loadRegistersFromI : Obligations.LoadRegistersFromI := by
  refine fun x s => ⟨decodeWord_encode (.loadRegs x), fun hin => ?_, fun hout => ?_⟩
  · have hkept := setRegs_keepsPiecesBut s (regsUpTo x) (bytesFrom s s.i.toNat (x.val + 1))
    have hkeptPc : (setRegs s (regsUpTo x) (bytesFrom s s.i.toNat (x.val + 1))).pc = s.pc := by rw [setRegs_eq]
    obtain ⟨hunchanged, hadded, hpc⟩ := stepIndex_advance_i_pc hkept.params (hkept.index List.not_mem_nil) hkeptPc x
    refine ⟨_, (execLoadRegs_eq x s).trans (if_pos hin), fun r hr => ?_, fun r hr => ?_, hunchanged, hadded, hpc, ?_⟩
    · rw [State.advance_reg, stepIndex_reg, setRegs_bytesFrom_reg s _ hr]
    · rw [State.advance_reg, stepIndex_reg, setRegs_reg_other]
      rwa [mem_regsUpTo, not_le]
    · rw [stepIndex_eq, setRegs_eq]
      exact keepsOthers_of_regs_index s _ _ _
  · have hfault : exec (.loadRegs x) s = .fault .outOfBounds := (execLoadRegs_eq x s).trans (if_neg (by omega))
    exact ⟨hfault, afterStep_of_exec_fault hfault⟩

/-- Settles O34: a store that completed was inside MEM, so the load is too, and it reads the bytes the store left. -/
theorem loadAfterStoreGivesTheRegistersBack : Obligations.LoadAfterStoreGivesTheRegistersBack := by
  intro x s t u hstore hmem hi
  obtain ⟨hin, -⟩ := next_of_ite_fault ((execStoreRegs_eq x s).symm.trans hstore)
  obtain ⟨-, hstored, -⟩ := storeRegistersFromI x s
  obtain ⟨-, hloaded, -⟩ := loadRegistersFromI x u
  obtain ⟨t', ht', hbytes, -⟩ := hstored hin
  obtain rfl : t = t' := Host.Outcome.next.inj (hstore.symm.trans ht')
  rw [hi] at hloaded
  obtain ⟨w, hw, hregs, -⟩ := hloaded hin
  exact ⟨w, hw, fun r hr => by rw [hregs r hr, hmem, hbytes r hr]⟩

/-- Settles O27: the address is I, its 12 bits extended to 16. -/
theorem loadIndexWritesI : Obligations.LoadIndexWritesI := fun nnn s =>
  ⟨decodeWord_encode (.ldI nnn), _, rfl, addrWord_toNat nnn, rfl, onlyIndex_setI_advance s _⟩

/-- Settles O29: a digit's address does not depend on FX29_OOR. -/
theorem fontDigitAddress : Obligations.FontDigitAddress := fun x s hdigit =>
  ⟨decodeWord_encode (.ldF x), _, execLdF_digit x s hdigit, fontAddress_toNat _ _, rfl, onlyIndex_setI_advance s _⟩

end Sys2Proof.Machine
end

section
/-! The display (spec/43_display.md): CLS, and DRW through the pixels it inverts. -/

namespace Sys2Proof.Machine

/-! ## What is kept -/

/-- New registers, a new picture and a new PC, the registers not listed being as before. -/
theorem onlyDisplay_of_regs {rs : List Reg} {s : State} {v : Vector Byte 16} (hv : ∀ r, r ∉ rs → v.get r = s.reg r)
    (fb : Framebuffer) (pc : Word) : OnlyDisplay rs s { s with v := v, fb := fb, pc := pc } :=
  ⟨hv, rfl, fun _ => rfl, ⟨rfl, fun _ => rfl⟩, ⟨rfl, rfl⟩, fun _ => rfl, ⟨rfl, rfl⟩, rfl⟩

/-! ## The state after a DRW that completes -/

/-- The state a DRW whose rows all lie in MEM leaves (R172, R173). -/
def drawn (x y : Reg) (n : Nibble) (s : State) : State :=
  ((s.setFb (drawTargets s.fb false (drwTargets x y n s)).1).setReg VF
    (flagByte (drawTargets s.fb false (drwTargets x y n s)).2)).advance

section Drawn

variable (x y : Reg) (n : Nibble) (s : State)

theorem exec_drw_eq : exec (.drw x y n) s =
    if n.toNat = 0 ∨ s.i.toNat + n.toNat ≤ 4096 then .next (drawn x y n s) else .fault .outOfBounds := execDrw_eq x y n s

theorem drawn_pixel (px : Fin 64) (py : Fin 32) :
    (drawn x y n s).pixel px py = (s.pixel px py ^^ decide (⟨px, py⟩ ∈ drwTargets x y n s)) :=
  drawTargets_pixel s.fb false _ (drwTargets_nodup x y n s) ⟨px, py⟩

theorem drawn_pixel_ne_iff (px : Fin 64) (py : Fin 32) :
    (drawn x y n s).pixel px py ≠ s.pixel px py ↔ ⟨px, py⟩ ∈ drwTargets x y n s := by
  rw [drawn_pixel]
  by_cases hmem : ⟨px, py⟩ ∈ drwTargets x y n s <;> simp [hmem]

/-- A pixel that goes off is one that was on and is inverted. -/
theorem drawn_pixel_goes_off_iff (px : Fin 64) (py : Fin 32) :
    s.pixel px py = true ∧ (drawn x y n s).pixel px py = false ↔ ⟨px, py⟩ ∈ drwTargets x y n s ∧ s.pixel px py = true := by
  rw [drawn_pixel, and_comm, and_congr_left_iff]
  intro hon
  simp [hon]

theorem drawn_VF : (drawn x y n s).reg VF = flagByte ((drwTargets x y n s).any fun c => s.pixel c.x c.y) := by
  rw [drawn, setReg_advance_reg, drawTargets_collision _ _ _ (drwTargets_nodup x y n s), Bool.false_or]
  rfl

/-- R172: the flag tells whether a pixel went off. -/
theorem drawn_VF_eq_one_iff :
    (drawn x y n s).reg VF = 1 ↔ ∃ px py, s.pixel px py = true ∧ (drawn x y n s).pixel px py = false := by
  have hflag (b : Bool) : flagByte b = 1 ↔ b = true := by cases b <;> decide
  simp only [drawn_VF, hflag, List.any_eq_true, drawn_pixel_goes_off_iff]
  exact ⟨fun ⟨c, hc⟩ => ⟨c.x, c.y, hc⟩, fun ⟨px, py, hc⟩ => ⟨⟨px, py⟩, hc⟩⟩

theorem onlyDisplay_drawn : OnlyDisplay [VF] s (drawn x y n s) := by
  refine onlyDisplay_of_regs (fun r hr => ?_) _ _
  exact (State.setReg_reg s VF _ r).trans (if_neg (Ne.symm (List.ne_of_not_mem_cons hr)))

/-- A second draw with the same coordinates inverts the same pixels. -/
theorem mem_drwTargets_drawn (hx : (drawn x y n s).reg x = s.reg x) (hy : (drawn x y n s).reg y = s.reg y) (c : Coord) :
    c ∈ drwTargets x y n (drawn x y n s) ↔ c ∈ drwTargets x y n s := by
  rw [mem_drwTargets, mem_drwTargets, hx, hy]
  rfl

end Drawn

/-! ## The place of a sprite bit, as numbers -/

theorem pixelTarget_wrap_iff {edge : DrwEdge} (h : edge = .wrap) (vx vy : Byte) (r c : Nat) (px : Fin 64) (py : Fin 32) :
    pixelTarget edge vx vy r c = some ⟨px, py⟩ ↔ px.val = (vx.toNat + c) % 64 ∧ py.val = (vy.toNat + r) % 32 := by
  rw [h, pixelTarget, Option.some.injEq, Coord.mk.injEq, eq_comm, @eq_comm _ _ py]
  simp only [Fin.ext_iff, Fin.val_ofNat]

theorem pixelTarget_clip_iff {edge : DrwEdge} (h : edge = .clip) (vx vy : Byte) (r c : Nat) (px : Fin 64) (py : Fin 32) :
    pixelTarget edge vx vy r c = some ⟨px, py⟩ ↔ px.val = vx.toNat % 64 + c ∧ py.val = vy.toNat % 32 + r := by
  have hpx := px.isLt
  have hpy := py.isLt
  rw [h, pixelTarget]
  split
  · rw [Option.some.injEq, Coord.mk.injEq, eq_comm, @eq_comm _ _ py]
    simp only [Fin.ext_iff]
  · simp only [reduceCtorEq, false_iff]
    omega

/-! ## DRW in either edge mode -/

/-- R172, R173: what a DRW with no row or all rows in MEM does, the two coordinates of a sprite bit being given by `col` and `row`. -/
theorem drw_completes {x y : Reg} {n : Nibble} {s : State} {col row : Nat → Nat}
    (hplace : ∀ r c px py, pixelTarget s.params.drwEdge (s.reg x) (s.reg y) r c = some ⟨px, py⟩ ↔
      px.val = col c ∧ py.val = row r)
    (hin : n.toNat = 0 ∨ s.i.toNat + n.toNat - 1 ≤ 4095) :
    ∃ t, exec (.drw x y n) s = .next t ∧
      (∀ px py, t.pixel px py ≠ s.pixel px py ↔
        ∃ r c : Nat, r < n.toNat ∧ c < 8 ∧ (s.byteAt (s.i.toNat + r)).getLsbD (7 - c) = true ∧
          px.val = col c ∧ py.val = row r) ∧
      (t.reg 0xF = 1 ↔ ∃ px py, s.pixel px py = true ∧ t.pixel px py = false) ∧
      (t.reg 0xF = 0 ∨ t.reg 0xF = 1) ∧
      t.pc = s.pc + 2 ∧ OnlyDisplay [0xF] s t := by
  refine ⟨drawn x y n s, (exec_drw_eq x y n s).trans (if_pos (by omega)), fun px py => ?_, drawn_VF_eq_one_iff x y n s,
    reg_VF_of_flag_advance _ _, rfl, onlyDisplay_drawn x y n s⟩
  simp only [drawn_pixel_ne_iff, mem_drwTargets, hplace, spriteBit]

/-- R201: a row outside MEM is a fault, and the STEP then leaves the state as it was. -/
theorem drw_faults {x y : Reg} {n : Nibble} {s : State} (hn : 1 ≤ n.toNat) (hout : 4095 < s.i.toNat + n.toNat - 1) :
    exec (.drw x y n) s = .fault .outOfBounds ∧ (nextInstr s = .ok (.drw x y n) → afterStep s = s) := by
  have hfault : exec (.drw x y n) s = .fault .outOfBounds := (exec_drw_eq x y n s).trans (if_neg (by omega))
  exact ⟨hfault, afterStep_of_exec_fault hfault⟩

/-! ## The statements -/

/-- Settles O36: DRW with both coordinates of every sprite bit wrapped. -/
theorem drwInvertsWrappedPixels : Obligations.DrwInvertsWrappedPixels := fun x y n _ hedge =>
  ⟨decodeWord_encode (.drw x y n), drw_completes (pixelTarget_wrap_iff hedge _ _), drw_faults⟩

/-- Settles O37: DRW with the corner wrapped and the sprite bits counted on from there. -/
theorem drwDropsClippedPixels : Obligations.DrwDropsClippedPixels := fun _ _ _ _ hedge =>
  ⟨drw_completes (pixelTarget_clip_iff hedge _ _), drw_faults⟩

/-- Settles O38: both draws invert the same pixels, so those that went on with the first are those that go off with the second. -/
theorem drawingTwiceRestoresTheDisplay : Obligations.DrawingTwiceRestoresTheDisplay := by
  intro x y n s t hexec hx hy
  obtain ⟨hin, rfl⟩ := next_of_ite_fault ((exec_drw_eq x y n s).symm.trans hexec)
  have hback : KeepsDisplay s (drawn x y n (drawn x y n s)) := fun px py => by
    simp only [drawn_pixel, mem_drwTargets_drawn x y n s hx hy, Bool.xor_assoc, Bool.xor_self, Bool.xor_false]
  refine ⟨_, (exec_drw_eq x y n _).trans (if_pos hin), hback, ?_⟩
  simp only [drawn_VF_eq_one_iff, hback _ _, and_comm]

/-- Settles O35: CLS writes the blank picture and PC. -/
theorem clsTurnsEveryPixelOff : Obligations.ClsTurnsEveryPixelOff := fun _ =>
  ⟨decodeWord_encode .cls, _, rfl, Framebuffer.pixel_blank, rfl, onlyDisplay_of_regs (fun _ _ => rfl) _ _, rfl⟩

end Sys2Proof.Machine
end

section
/-! Input and timers (spec/44_input_timers.md): the key skips, the wait for a key, and the three timer transfers. -/

namespace Sys2Proof.Machine

/-! ## The key a register names (R188) -/

theorem keyOf_of_toNat {v : Byte} {k : Key} (h : v.toNat = k.val) : keyOf v = .ok k := by
  rw [keyOf_ok v (h ▸ k.isLt)]
  exact congrArg _ (Fin.ext h)

theorem exec_skp_of_key {x : Reg} {s : State} {k : Key} (h : (s.reg x).toNat = k.val) :
    exec (.skp x) s = .next (s.skipIf (s.key k)) := by
  rw [exec, execSkp, keyOf_of_toNat h]

theorem exec_sknp_of_key {x : Reg} {s : State} {k : Key} (h : (s.reg x).toNat = k.val) :
    exec (.sknp x) s = .next (s.skipIf (!s.key k)) := by
  rw [exec, execSknp, keyOf_of_toNat h]

theorem exec_skp_of_no_key {x : Reg} {s : State} (h : 15 < (s.reg x).toNat) : exec (.skp x) s = .fault .invalidKey := by
  simp only [exec, execSkp, keyOf_out _ h, raise]

theorem exec_sknp_of_no_key {x : Reg} {s : State} (h : 15 < (s.reg x).toNat) : exec (.sknp x) s = .fault .invalidKey := by
  simp only [exec, execSknp, keyOf_out _ h, raise]

/-! ## The wait for a key (R189) -/

theorem exec_ldVxK_of_leastPressed (x : Reg) {s : State} {k : Key} (h : leastPressed s = some k) :
    exec (.ldVxK x) s = .next (s.setReg x (BitVec.ofNat 8 k.val)).advance := by
  rw [exec, execLdVxK, h]

theorem exec_ldVxK_of_none_pressed (x : Reg) {s : State} (h : leastPressed s = none) : exec (.ldVxK x) s = .next s := by
  rw [exec, execLdVxK, h]

/-- The number of a key fits in the byte that is stored. -/
theorem keyByte_toNat (k : Key) : (BitVec.ofNat 8 k.val).toNat = k.val :=
  (BitVec.toNat_ofNat _ _).trans (Nat.mod_eq_of_lt (k.isLt.trans (by decide)))

/-! ## The timers -/

/-- New timers and a new PC are all that LD DT, LD ST and a TICK write (R190, R191, R216). -/
theorem onlyTimers_of_timers (s : State) (dt st : Byte) (pc : Word) : OnlyTimers s { s with dt := dt, st := st, pc := pc } :=
  ⟨fun _ _ => rfl, rfl, fun _ => rfl, fun _ _ => rfl, ⟨rfl, fun _ => rfl⟩, fun _ => rfl, ⟨rfl, rfl⟩, rfl⟩

/-- R224: the level the host sees. -/
theorem soundActive_iff (s : State) : s.soundActive = true ↔ 0 < s.st.toNat := decide_eq_true_iff

/-! ## The statements -/

/-- Settles O39: with a key's number in Vx each is a skip on that key's bit, and with none the lookup of the key is the fault. -/
theorem keySkipsTestTheLatch : Obligations.KeySkipsTestTheLatch := by
  refine fun x s => ⟨decodeWord_encode (.skp x), decodeWord_encode (.sknp x), fun k hk => ⟨?_, ?_⟩, fun hout => ?_⟩
  · exact ⟨_, exec_skp_of_key hk, State.skipIf_pc s _, onlyRegs_setPc [] s _⟩
  · refine ⟨_, exec_sknp_of_key hk, ?_, onlyRegs_setPc [] s _⟩
    simp only [State.skipIf_pc, Bool.not_eq_true']
  · exact ⟨exec_skp_of_no_key hout, exec_sknp_of_no_key hout⟩

/-- Settles O40: the key stored is the one `leastPressed` finds, and it finds none exactly when no key is pressed. -/
theorem waitForKeyStoresTheLeastKey : Obligations.WaitForKeyStoresTheLeastKey := by
  refine fun x s => ⟨decodeWord_encode (.ldVxK x), fun k hpressed hleast => ?_, fun hnone => ?_⟩
  · have hk : leastPressed s = some k := (leastPressed_some_iff s k).2 ⟨hpressed, hleast⟩
    refine ⟨_, exec_ldVxK_of_leastPressed x hk, ?_, rfl, onlyRegs_setReg_advance s x _⟩
    rw [setReg_advance_reg, keyByte_toNat]
  · exact exec_ldVxK_of_none_pressed x ((leastPressed_none_iff s).2 hnone)

/-- Settles O41: each of the three is one write and the new PC; the level is read off the ST written. -/
theorem timerTransfers : Obligations.TimerTransfers := by
  refine fun x s => ⟨decodeWord_encode (.ldVxDt x), decodeWord_encode (.ldDtVx x), decodeWord_encode (.ldStVx x), ?_, ?_, ?_⟩
  · exact ⟨_, rfl, setReg_advance_reg s x s.dt, rfl, onlyRegs_setReg_advance s x _⟩
  · exact ⟨_, rfl, rfl, rfl, rfl, onlyTimers_of_timers s _ _ _⟩
  · exact ⟨_, rfl, rfl, rfl, rfl, onlyTimers_of_timers s _ _ _, soundActive_iff _⟩

end Sys2Proof.Machine
end

section
/-! What stops an instruction (spec/60_exceptions.md R207; spec/42_index_memory.md R154): its faults and refusals as a table, and that
each instruction stops exactly as its row says. -/

namespace Sys2Proof.Machine

/-! ## The table -/

/-- The fault an instruction raises in a state, where it raises one (R207). -/
def raisedFault (i : Instr) (s : State) : Option Fault :=
  match i with
  | .ret => if s.sp.toNat = 0 then some .stackUnderflow else none
  | .call _ => if 16 ≤ s.sp.toNat then some .stackOverflow else none
  | .drw _ _ n => if 1 ≤ n.toNat ∧ 0xFFF < s.i.toNat + n.toNat - 1 then some .outOfBounds else none
  | .ldB _ => if 0xFFF < s.i.toNat + 2 then some .outOfBounds else none
  | .storeRegs x | .loadRegs x => if 0xFFF < s.i.toNat + x.val then some .outOfBounds else none
  | .skp x | .sknp x => if 15 < (s.reg x).toNat then some .invalidKey else none
  | _ => none

/-- The refusal the model gives an instruction in a state, where it gives one (R154; log entry 8). -/
def givenRefusal (i : Instr) (s : State) : Option Refusal :=
  match i with
  | .ret => if 16 < s.sp.toNat then some .stackPointerOutOfRange else none
  | .ldF x => if s.params.fx29Oor = .refuse ∧ 0xF < (s.reg x).toNat then some .fontDigitOutOfRange else none
  | _ => none

/-! ## Outcomes that are no next state -/

theorem fault?_eq_some_iff {o : Result} {f : Fault} : fault? o = some f ↔ o = .fault f := by
  cases o <;> simp [fault?]

theorem refusal?_eq_some_iff {o : Result} {r : Refusal} : refusal? o = some r ↔ o = .refused r := by
  cases o <;> simp [refusal?]

theorem stops_of_next {o : Result} {t : State} (h : o = .next t) : fault? o = none ∧ refusal? o = none := by
  rw [h]
  exact ⟨rfl, rfl⟩

/-- An outcome that is a fault under a condition and else a next state. -/
theorem stops_of_guard {c : Prop} [Decidable c] {o : Result} {f : Fault} (hfault : c → o = .fault f)
    (hnext : ¬c → ∃ t, o = .next t) : fault? o = (if c then some f else none) ∧ refusal? o = none := by
  split
  · rw [hfault ‹_›]
    exact ⟨rfl, rfl⟩
  · obtain ⟨_, ht⟩ := hnext ‹_›
    exact stops_of_next ht

/-- The form the meanings over several bytes have: all the bytes inside MEM, or OutOfBounds. -/
theorem stops_of_ite {c d : Prop} [Decidable c] [Decidable d] {o : Result} {t : State} {f : Fault}
    (h : o = if d then .next t else .fault f) (hcd : c ↔ ¬d) :
    fault? o = (if c then some f else none) ∧ refusal? o = none :=
  stops_of_guard (fun hc => h.trans (if_neg (hcd.1 hc))) fun hc => ⟨t, h.trans (if_pos (not_not.1 (hc ∘ hcd.2)))⟩

/-! ## Each instruction stops as its row says -/

theorem exec_ret_of_empty (s : State) (h : s.sp.toNat = 0) : exec .ret s = .fault .stackUnderflow :=
  popIntoPc_empty s (BitVec.eq_of_toNat_eq h)

/-- A RET with more entries than STACK has slots (log entry 8). -/
theorem exec_ret_of_no_slot (s : State) (h : 16 < s.sp.toNat) : exec .ret s = .refused .stackPointerOutOfRange := by
  have h0 : s.sp ≠ 0 := fun h0 => by simp [h0] at h
  rw [exec, execRet, popIntoPc, if_neg h0, top?, dif_neg (by omega)]

theorem exec_ret_stops (s : State) :
    fault? (exec .ret s) = raisedFault .ret s ∧ refusal? (exec .ret s) = givenRefusal .ret s := by
  obtain h | h | h : s.sp.toNat = 0 ∨ (1 ≤ s.sp.toNat ∧ s.sp.toNat ≤ 16) ∨ 16 < s.sp.toNat := by omega
  · simp [exec_ret_of_empty s h, raisedFault, givenRefusal, fault?, refusal?, h]
  · obtain ⟨h1, h16⟩ := h
    have hj : s.sp.toNat = (⟨s.sp.toNat - 1, by omega⟩ : Fin 16).val + 1 := by simp only; omega
    simp only [raisedFault, givenRefusal, if_neg (Nat.pos_iff_ne_zero.1 h1), if_neg h16.not_gt]
    exact stops_of_next (exec_ret_of_entry s _ hj)
  · have h0 : s.sp.toNat ≠ 0 := by omega
    simp [exec_ret_of_no_slot s h, raisedFault, givenRefusal, fault?, refusal?, h, h0]

theorem exec_ldF_stops (x : Reg) (s : State) :
    fault? (exec (.ldF x) s) = raisedFault (.ldF x) s ∧ refusal? (exec (.ldF x) s) = givenRefusal (.ldF x) s := by
  by_cases hd : (s.reg x).toNat ≤ 0xF
  · rw [givenRefusal, if_neg fun h => hd.not_gt h.2]
    exact stops_of_next (execLdF_digit x s hd)
  · have hexec : exec (.ldF x) s = _ := execLdF_above x s (not_le.1 hd)
    cases hp : s.params.fx29Oor <;> rw [hp] at hexec
    case refuse =>
      rw [hexec, givenRefusal, if_pos ⟨hp, not_le.1 hd⟩]
      exact ⟨rfl, rfl⟩
    case mask | linear | free =>
      rw [givenRefusal, if_neg (by simp [hp])]
      exact stops_of_next hexec

/-- R207, R154: the fault and the refusal of every instruction are those of the table. -/
theorem exec_stops (i : Instr) (s : State) : fault? (exec i s) = raisedFault i s ∧ refusal? (exec i s) = givenRefusal i s := by
  cases i
  case cls | jp | seByte | sneByte | seReg | sneReg | jpV0 | ldByte | addByte | ldReg | orReg | andReg | xorReg | addReg | subReg |
      shr | subnReg | shl | ldI | rnd | ldVxDt | ldDtVx | ldStVx =>
    exact ⟨rfl, rfl⟩
  case addI x =>
    cases hp : s.params.fx1eVf with
    | off => exact stops_of_next (execAddI_off x s hp)
    | on => exact stops_of_next (execAddI_on x s hp)
  case ldVxK x =>
    cases hk : leastPressed s with
    | none => exact stops_of_next (exec_ldVxK_of_none_pressed x hk)
    | some k => exact stops_of_next (exec_ldVxK_of_leastPressed x hk)
  case ret => exact exec_ret_stops s
  case ldF x => exact exec_ldF_stops x s
  case call nnn =>
    exact stops_of_guard (exec_call_of_full nnn s) fun h => ⟨_, exec_call_of_free nnn s ⟨_, not_le.1 h⟩ rfl⟩
  case skp x =>
    exact stops_of_guard exec_skp_of_no_key fun h => ⟨_, exec_skp_of_key (k := ⟨(s.reg x).toNat, by omega⟩) rfl⟩
  case sknp x =>
    exact stops_of_guard exec_sknp_of_no_key fun h => ⟨_, exec_sknp_of_key (k := ⟨(s.reg x).toNat, by omega⟩) rfl⟩
  case drw x y n => exact stops_of_ite (exec_drw_eq x y n s) (by omega)
  case ldB x => exact stops_of_ite (execLdB_eq x s) (by omega)
  case storeRegs x => exact stops_of_ite (execStoreRegs_eq x s) (by omega)
  case loadRegs x => exact stops_of_ite (execLoadRegs_eq x s) (by omega)

theorem exec_fault_iff {i : Instr} {s : State} {f : Fault} : exec i s = .fault f ↔ raisedFault i s = some f := by
  rw [← fault?_eq_some_iff, (exec_stops i s).1]

theorem exec_refused_iff {i : Instr} {s : State} {r : Refusal} : exec i s = .refused r ↔ givenRefusal i s = some r := by
  rw [← refusal?_eq_some_iff, (exec_stops i s).2]

/-! ## What the rows hold -/

/-- R214: the rows read SP, I and the registers only. -/
theorem raisedFault_congr {s t : State} (hsp : t.sp = s.sp) (hi : t.i = s.i) (hregs : KeepsRegsBut [] s t) (i : Instr) :
    raisedFault i t = raisedFault i s := by
  have hreg (x : Reg) : t.reg x = s.reg x := hregs x List.not_mem_nil
  cases i <;> simp only [raisedFault, hsp, hi, hreg]

/-- Of the six faults the table holds four. -/
theorem raisedFault_mem {i : Instr} {s : State} {f : Fault} (h : raisedFault i s = some f) :
    f ∈ [.stackUnderflow, .stackOverflow, .outOfBounds, .invalidKey] := by
  unfold raisedFault at h
  split at h <;> simp_all

/-- With at most 16 stack entries the refusal of R154 is the only one. -/
theorem givenRefusal_eq_some_iff {i : Instr} {s : State} {r : Refusal} (hsp : s.sp.toNat ≤ 16) :
    givenRefusal i s = some r ↔
      s.params.fx29Oor = .refuse ∧ (∃ x, i = .ldF x ∧ 0xF < (s.reg x).toNat) ∧ r = .fontDigitOutOfRange := by
  cases i <;> simp [givenRefusal, hsp.not_gt, and_assoc, eq_comm (b := r)]

/-! ## The statement -/

/-- Settles O54: row by row; with at most 16 entries a stack that is full has exactly 16. -/
theorem faultsOfEveryInstruction : Obligations.FaultsOfEveryInstruction := by
  intro i s f hsp
  have hfull : 16 ≤ s.sp.toNat ↔ s.sp.toNat = 16 := by omega
  rw [exec_fault_iff]
  cases i <;> simp [raisedFault, hfull, and_assoc, eq_comm (b := f)]

end Sys2Proof.Machine
end

section
/-! What stops a STEP, an event and a step (spec/60_exceptions.md R200, R204 to R206, R212 to R214, R230). -/

namespace Sys2Proof.Machine

/-! ## Fetch and decode -/

theorem nextInstr_of_fetch_error {s : State} {f : Fault} (h : fetch s = .error f) : nextInstr s = .error f := by
  simp only [nextInstr, h]

/-- R204: the word fetched is the fault's payload. -/
theorem nextInstr_of_unknown {s : State} {op : Word} (hfetch : fetch s = .ok op)
    (hdecode : decodeWord op = .error (.unknownInstruction op)) : nextInstr s = .error (.unknownInstruction op) := by
  simp only [nextInstr, hfetch, hdecode, decodeFault]

/-- R201, R204: fetch and decode have one fault each. -/
theorem nextInstr_error {s : State} {f : Fault} (h : nextInstr s = .error f) :
    f = .outOfBounds ∨ ∃ op, f = .unknownInstruction op := by
  by_cases hpc : s.pc.toNat ≤ 0xFFE
  · by_cases hdecodes : ∃ i, decodeWord (wordOfBytes (s.byteAt s.pc.toNat) (s.byteAt (s.pc.toNat + 1))) = .ok i
    · obtain ⟨i, hi⟩ := hdecodes
      cases h.symm.trans ((nextInstr_ok_iff s i).2 ⟨hpc, hi⟩)
    · have hunknown := nextInstr_of_unknown (fetch_ok s hpc) (decodeWord_unknown_of_not_ok (not_exists.1 hdecodes))
      exact .inr ⟨_, Except.error.inj (h.symm.trans hunknown)⟩
  · have hout := nextInstr_of_fetch_error (fetch_out s (not_le.1 hpc))
    exact .inl (Except.error.inj (h.symm.trans hout))

/-! ## STEP -/

theorem runStep_of_nextInstr_error {s : State} {f : Fault} (h : nextInstr s = .error f) : runStep s = .fault f := by
  simp only [runStep, h, raise]

/-- R212: the fault of fetch or decode, else that of the instruction. -/
theorem runStep_fault_iff {s : State} {f : Fault} :
    runStep s = .fault f ↔ nextInstr s = .error f ∨ ∃ i, nextInstr s = .ok i ∧ raisedFault i s = some f := by
  cases h : nextInstr s with
  | ok i => simp [runStep_of_nextInstr h, exec_fault_iff]
  | error g => simp [runStep_of_nextInstr_error h]

theorem runStep_refused_iff {s : State} {r : Refusal} :
    runStep s = .refused r ↔ ∃ i, nextInstr s = .ok i ∧ givenRefusal i s = some r := by
  cases h : nextInstr s with
  | ok i => simp [runStep_of_nextInstr h, exec_refused_iff]
  | error g => simp [runStep_of_nextInstr_error h]

/-- R230: the host receives an error exactly where the STEP is a fault. -/
theorem stepResult_err_iff {s : State} {f : Fault} : stepResult s = .err f ↔ runStep s = .fault f := by
  cases h : nextInstr s with
  | ok i =>
    rw [stepResult, h, runStep_of_nextInstr h]
    cases hexec : exec i s <;> simp [hexec]
  | error g => simp [stepResult, h, runStep_of_nextInstr_error h]

/-! ## The other events -/

theorem deliver_setKey_ok {n : Nat} {k : Key} (h : n = k.val) (p : Bool) (s : State) :
    deliver (.setKey n p) s = .next (s.setKeyBit k p) := by
  subst h
  rw [deliver, setKey_ok _ _ _ k.isLt]
  rfl

theorem deliver_setKey_out {n : Nat} (h : 15 < n) (p : Bool) (s : State) :
    deliver (.setKey n p) s = .fault .invalidKey := by
  rw [deliver, setKey, dif_neg (by omega)]
  rfl

/-- Of the host's own events SET_KEY and LOAD can fail, and none is refused (R200, R232). -/
theorem deliver_stops {e : Event} (he : e ≠ .step) (s : State) :
    (∀ f, deliver e s = .fault f → f = .invalidKey ∨ f = .outOfBounds) ∧ ∀ r, deliver e s ≠ .refused r := by
  cases e with
  | step => exact absurd rfl he
  | tick | reset => exact ⟨nofun, nofun⟩
  | setKey k p => rw [deliver, setKey]; split <;> simp [finish, raise]
  | load bs off => rw [deliver, load]; split <;> simp [finish, raise]

/-- The host's list plays no part in a STEP (log entry 5). -/
theorem deliver_step_refused_iff {s : State} {rest : List Event} {r : Refusal} :
    deliver .step (s.setHostEvents rest) = .refused r ↔ runStep s = .refused r := by
  have hrow (i : Instr) : givenRefusal i (s.setHostEvents rest) = givenRefusal i s := by cases i <;> rfl
  rw [deliver, runStep_refused_iff, runStep_refused_iff]
  simp only [nextInstr_setHostEvents, hrow]

/-- Only a STEP is refused, whether or not the host lists it. -/
theorem step_refused_iff {s : State} {r : Refusal} :
    step s = .refused r ↔ (s.hostEvents = [] ∨ ∃ rest, s.hostEvents = .step :: rest) ∧ runStep s = .refused r := by
  cases hs : s.hostEvents with
  | nil => simp [step_of_hostEvents_nil hs]
  | cons e rest =>
    rw [step_of_hostEvents_cons hs]
    by_cases he : e = .step
    · simp [he, deliver_step_refused_iff]
    · simp [he, (deliver_stops he (s.setHostEvents rest)).2 r]

/-! ## The register file's own interface (R206) -/

theorem regFileGet_reg (s : State) (r : Reg) : regFileGet s r.val = .ok (s.reg r) := by
  rw [regFileGet, reg?, dif_pos r.isLt]

theorem regFileGet_out {n : Nat} (h : 15 < n) (s : State) : regFileGet s n = .error .invalidRegister := by
  rw [regFileGet, reg?, dif_neg (by omega)]

theorem runStep_ne_invalidRegister (s : State) : runStep s ≠ .fault .invalidRegister := by
  intro h
  obtain h | ⟨i, -, h⟩ := runStep_fault_iff.1 h
  · simpa using nextInstr_error h
  · simpa using raisedFault_mem h

theorem deliver_ne_invalidRegister (e : Event) (s : State) : deliver e s ≠ .fault .invalidRegister := by
  by_cases he : e = .step
  · rw [he]
    exact runStep_ne_invalidRegister s
  · intro h
    simpa using (deliver_stops he s).1 _ h

/-! ## What a fault depends on (R214) -/

theorem stepResult_err_of_same {s t : State} {f : Fault} (hpc : t.pc = s.pc) (hsp : t.sp = s.sp) (hi : t.i = s.i)
    (hregs : KeepsRegsBut [] s t) (hmem : KeepsMemory s t) (h : stepResult s = .err f) : stepResult t = .err f := by
  rw [stepResult_err_iff, runStep_fault_iff] at h ⊢
  simpa only [nextInstr_congr hpc hmem, raisedFault_congr hsp hi hregs] using h

/-- A TICK and a SET_KEY write nothing the fault depends on, and the STEP that faults writes nothing (R213). -/
theorem stepResult_err_afterEvent {e : Event} {s : State} {f : Fault} (he : e = .tick ∨ e = .step ∨ ∃ k p, e = .setKey k p)
    (h : stepResult s = .err f) : stepResult (afterEvent e s) = .err f := by
  obtain rfl | rfl | ⟨n, p, rfl⟩ := he
  · exact stepResult_err_of_same (s := s) rfl rfl rfl (fun _ _ => rfl) (fun _ => rfl) h
  · rwa [afterEvent, deliver, stepResult_err_iff.1 h]
  · by_cases hn : n < 16
    · rw [afterEvent, deliver_setKey_ok (k := ⟨n, hn⟩) rfl]
      exact stepResult_err_of_same (s := s) rfl rfl rfl (fun _ _ => rfl) (fun _ => rfl) h
    · rwa [afterEvent, deliver_setKey_out (not_lt.1 hn)]

/-! ## The statements -/

/-- Settles O50: the fault's inputs are kept, and so it comes again after each event in turn. -/
theorem faultComesAgainAfterTicksAndKeys : Obligations.FaultComesAgainAfterTicksAndKeys := by
  refine ⟨fun s t f => stepResult_err_of_same, fun s f es => ?_⟩
  induction es generalizing s with
  | nil => exact fun _ h => h
  | cons e es ih =>
    intro hes h
    obtain ⟨he, hes⟩ := List.forall_mem_cons.1 hes
    exact ih _ hes (stepResult_err_afterEvent he h)

/-- Settles O55: no fetch, no row of the table and no event of the host has this fault. -/
theorem invalidRegisterIsNoStepsFault : Obligations.InvalidRegisterIsNoStepsFault := by
  refine ⟨fun s n => ⟨fun h => ?_, fun hn => regFileGet_out hn s⟩, regFileGet_reg, fun s => ?_⟩
  · by_contra hn
    cases h.symm.trans (regFileGet_reg s ⟨n, by omega⟩)
  · cases hs : s.hostEvents with
    | nil =>
      rw [step_of_hostEvents_nil hs]
      exact runStep_ne_invalidRegister s
    | cons e rest =>
      rw [step_of_hostEvents_cons hs]
      exact deliver_ne_invalidRegister e _

/-- Settles O56: only a STEP is refused, and with at most 16 stack entries only in the row of LD F. -/
theorem refusedExactlyAtANonDigit : Obligations.RefusedExactlyAtANonDigit := by
  intro s r hinv
  rw [step_refused_iff, runStep_refused_iff]
  simp only [givenRefusal_eq_some_iff hinv.sp_le]
  refine and_congr_right fun _ => ⟨?_, ?_⟩
  · rintro ⟨_, hi, hrefuse, ⟨x, rfl, hx⟩, hr⟩
    exact ⟨hrefuse, hr, x, hi, hx⟩
  · rintro ⟨hrefuse, hr, x, hi, hx⟩
    exact ⟨_, hi, hrefuse, ⟨x, rfl, hx⟩, hr⟩

/-- Settles O8: a word of no row does not decode, so the decoder's fault carries it. -/
theorem unknownInstructionCarriesTheOpcode : Obligations.UnknownInstructionCarriesTheOpcode := by
  intro s hevents hpc hrows
  have hdecode : ∀ i, decodeWord (wordOfBytes (s.byteAt s.pc.toNat) (s.byteAt (s.pc.toNat + 1))) ≠ .ok i := fun i hi => by
    obtain ⟨r, hr, hcovers⟩ := row_of_decodeWord hi
    exact hrows r (List.mem_of_getElem? hr) hcovers
  rw [step_of_hostEvents_nil hevents]
  exact runStep_of_nextInstr_error (nextInstr_of_unknown (fetch_ok s hpc) (decodeWord_unknown_of_not_ok hdecode))

end Sys2Proof.Machine
end

section
/-! The events TICK and SET_KEY, and the summary of a STEP (spec/60_exceptions.md R216, R219, R221, R230). -/

namespace Sys2Proof.Machine

/-! ## TICK -/

@[simp] theorem tick_st_toNat (s : State) : (tick s).st.toNat = s.st.toNat - 1 := countDown_toNat s.st

theorem afterEvents_replicate_tick_succ (k : Nat) (s : State) :
    afterEvents (List.replicate (k + 1) .tick) s = afterEvents (List.replicate k .tick) (tick s) := rfl

/-- R219, subtraction on natural numbers stopping at 0. -/
theorem afterEvents_ticks_timers (k : Nat) (s : State) :
    (afterEvents (List.replicate k .tick) s).dt.toNat = s.dt.toNat - k ∧
    (afterEvents (List.replicate k .tick) s).st.toNat = s.st.toNat - k := by
  induction k generalizing s with
  | zero => exact ⟨rfl, rfl⟩
  | succ k ih =>
    obtain ⟨hdt, hst⟩ := ih (tick s)
    rw [tick_dt_toNat] at hdt
    rw [tick_st_toNat] at hst
    rw [afterEvents_replicate_tick_succ, hdt, hst]
    omega

/-! ## The latch -/

/-- R221: an event that is no SET_KEY has no write to the latch among its own. -/
theorem deliver_keepsKeys {e : Event} {s t : State} (he : ∀ n p, e ≠ .setKey n p) (h : deliver e s = .next t) :
    KeepsKeys s t := by
  obtain ⟨rfl, h⟩ | ⟨rfl, rfl⟩ | ⟨n, p, _, rfl, _⟩ | ⟨rfl, rfl⟩ | ⟨bs, off, rfl, _, rfl⟩ := deliver_next h
  · obtain ⟨i, _, h⟩ := runStep_next h
    exact (noInstructionWritesKeysOrParameters i s t h).1
  · exact fun _ => rfl
  · exact absurd rfl (he n p)
  · exact fun _ => rfl
  · exact copyBytes_key s off bs

/-! ## The summary of a STEP -/

theorem stepResult_of_exec_next {i : Instr} {s t : State} (hi : nextInstr s = .ok i) (h : exec i s = .next t) :
    stepResult s = .ok (summarize i s t) := by
  simp only [stepResult, hi, h]

theorem drawsOnDisplay_iff (i : Instr) : drawsOnDisplay i = true ↔ i = .cls ∨ ∃ x y n, i = .drw x y n := by
  cases i <;> simp [drawsOnDisplay]

theorem awaitsKey_iff (i : Instr) (s : State) : awaitsKey i s = true ↔ (∃ x, i = .ldVxK x) ∧ ∀ k, s.key k = false := by
  cases i <;> simp [awaitsKey, leastPressed_none_iff]

/-! ## The statements -/

/-- Settles O43: TICK writes the two timers, each counted down. -/
theorem tickCountsBothTimersDown : Obligations.TickCountsBothTimersDown := by
  refine fun s => ⟨tick s, deliver_tick s, fun _ => tick_dt_toNat s, fun h => ?_, fun _ => tick_st_toNat s, fun h => ?_, rfl,
    onlyTimers_of_timers s _ _ s.pc⟩
  · rw [tick_dt_toNat, h]
  · rw [tick_st_toNat, h]

/-- Settles O44: the subtraction that stops at 0, said with integers. -/
theorem ticksSubtractDownToZero : Obligations.TicksSubtractDownToZero := by
  intro k s
  obtain ⟨hdt, hst⟩ := afterEvents_ticks_timers k s
  rw [hdt, hst]
  omega

/-- Settles O45: one bit set, or the range check failed; and the other events keep the latch. -/
theorem setKeyWritesOneBit : Obligations.SetKeyWritesOneBit := by
  refine fun n p s => ⟨fun k hk => ?_, fun hn => ?_, fun e t => deliver_keepsKeys⟩
  · refine ⟨_, deliver_setKey_ok hk p s, ?_, fun j hj => ?_, rfl, fun _ _ => rfl, rfl, fun _ => rfl, fun _ _ => rfl,
      ⟨rfl, fun _ => rfl⟩, ⟨rfl, rfl⟩, ⟨rfl, rfl⟩, rfl⟩
    · rw [State.setKeyBit_key, if_pos rfl]
    · rw [State.setKeyBit_key, if_neg hj.symm]
  · have hfault := deliver_setKey_out hn p s
    exact ⟨hfault, by rw [afterEvent, hfault]⟩

/-- Settles O49: the three booleans of the summary one by one. -/
theorem summaryOfAStep : Obligations.SummaryOfAStep := fun s t i hi h =>
  ⟨summarize i s t, stepResult_of_exec_next hi h, drawsOnDisplay_iff i, soundActive_iff t, awaitsKey_iff i s⟩

end Sys2Proof.Machine
end

section
/-! The host's interface to a core (spec/70_reset_and_hazards.md R240, R244 to R246): RESET, LOAD, and a word placed for the next
step. -/

namespace Sys2Proof.Machine

/-! ## A word placed for the next step (log entry 7) -/

/-- The decoder reads the two bytes of the word as that word (R54). -/
theorem decodeWord_tableWord {nbits w : Nat} {i : Instr} (h : decodeTableWord nbits w = some i) :
    decodeWord (tableWord nbits w) = .ok i := by
  rw [decodeTableWord, decode, wordOfBytes_high_low] at h
  cases hword : decodeWord (tableWord nbits w) with
  | ok j =>
    rw [hword] at h
    exact congrArg Except.ok (Option.some.inj h)
  | error e =>
    rw [hword] at h
    cases h

/-- Both bytes at the place are inside MEM, whatever PC is (R84). -/
theorem fetchPlace_toNat_le (s : State) : (fetchPlace s).toNat ≤ 0xFFE := by
  unfold fetchPlace
  split
  · assumption
  · decide

@[simp] theorem withFetchWord_pc (s : State) (nbits w : Nat) : (s.withFetchWord nbits w).pc = fetchPlace s := rfl

@[simp] theorem withFetchWord_hostEvents (s : State) (nbits w : Nat) : (s.withFetchWord nbits w).hostEvents = [] := rfl

/-- The second byte written leaves the first. -/
theorem withFetchWord_byteAt_high (s : State) (nbits w : Nat) :
    (s.withFetchWord nbits w).byteAt (fetchPlace s).toNat = highByte (tableWord nbits w) := by
  simp [State.withFetchWord]

theorem withFetchWord_byteAt_low (s : State) (nbits w : Nat) :
    (s.withFetchWord nbits w).byteAt ((fetchPlace s).toNat + 1) = lowByte (tableWord nbits w) := by
  simp [State.withFetchWord]

theorem nextInstr_withFetchWord {nbits w : Nat} {i : Instr} (h : decodeTableWord nbits w = some i) (s : State) :
    nextInstr (s.withFetchWord nbits w) = .ok i := by
  refine (nextInstr_ok_iff _ i).2 ⟨fetchPlace_toNat_le s, ?_⟩
  rw [withFetchWord_pc, withFetchWord_byteAt_high, withFetchWord_byteAt_low, wordOfBytes_high_low]
  exact decodeWord_tableWord h

/-! ## LOAD (R244) -/

/-- R232: a LOAD past the last address is an error. -/
theorem load_out (bytes : List Byte) (offset : Nat) (s : State) (h : 4096 < offset + bytes.length) :
    load bytes offset s = .error .outOfBounds := if_pos h

theorem deliver_load_ok {bytes : List Byte} {offset : Nat} (h : offset + bytes.length ≤ 4096) (s : State) :
    deliver (.load bytes offset) s = .next (copyBytes s offset bytes) := by
  rw [deliver, load_ok _ _ _ h, finish]

theorem deliver_load_out {bytes : List Byte} {offset : Nat} (h : 4096 < offset + bytes.length) (s : State) :
    deliver (.load bytes offset) s = .fault .outOfBounds := by
  rw [deliver, load_out _ _ _ h, finish, raise]

/-! ## The statements -/

/-- Settles O9: the two bytes placed at PC are the word, and no event is listed before the STEP. -/
theorem placedWordRunsNext : Obligations.PlacedWordRunsNext := by
  intro s nbits w i h
  rw [step_of_hostEvents_nil (withFetchWord_hostEvents s nbits w), runStep_of_nextInstr (nextInstr_withFetchWord h s)]

/-- Settles O46: the bytes copied, or the bound check failed. -/
theorem loadCopiesTheProgram : Obligations.LoadCopiesTheProgram := by
  refine fun bytes offset s => ⟨fun hin => ?_, fun hout => ?_⟩
  · refine ⟨_, deliver_load_ok hin s, copyBytes_byteAt_inside s offset bytes, copyBytes_byteAt_outside s offset bytes,
      copyBytes_i s _ _, copyBytes_pc s _ _, ?_⟩
    rw [copyBytes_eq]
    exact onlyMemoryAndIndex_of_mem s _ s.i s.pc
  · have hfault := deliver_load_out hout s
    exact ⟨hfault, by rw [afterEvent, hfault]⟩

/-- Settles O47: RESET gives the power-on state of the core's own parameters, but for what it keeps. -/
theorem resetEventRestoresTheMachine : Obligations.ResetEventRestoresTheMachine := fun s =>
  ⟨resetCore s, rfl, State.powerOn_reg s.params, rfl, rfl, rfl, State.powerOn_slot s.params, rfl, rfl,
    unlistedByte_font s.params, unlistedByte_else s.params, State.powerOn_pixel s.params, fun _ => rfl, rfl, rfl⟩

end Sys2Proof.Machine
end
